-- ==== Sys2Proof/Word.lean ====
section
/-! DEFINITION. The value types of the block: the 64-bit register value (`Int64` of spec R7) with its signed
reading and its wrap-around, and the 66-bit canonical cell word (R85). -/

namespace Sys2Proof

/-- R7 `Int64`: a 64-bit vector read as a two's-complement signed integer. -/
abbrev Word := BitVec 64

/-- R85: the canonical cell word, `w[65:0]`, tag in `w[65:64]`, payload in `w[63:0]`. -/
abbrev CellWord := BitVec 66

/-- R7 `sint(v)`: the mathematical integer an `Int64` denotes, in `[-2^63, 2^63 - 1]`. -/
def sint (v : Word) : Int := v.toInt

/-- R7 `wrap64(n)`: the one `Int64` whose signed reading is `n` modulo `2^64`. -/
def wrap64 (n : Int) : Word := BitVec.ofInt 64 n

/-- R7 `INT64_MIN`. -/
def int64Min : Int := -(2 ^ 63)

/-- R7 `INT64_MAX`. -/
def int64Max : Int := 2 ^ 63 - 1

end Sys2Proof
end

