-- ==== Sys2Proof/Machine/Alu.lean ====
section
/-! DEFINITION. The ALU: exact arithmetic on the signed readings, wrapped to 64 bits (R7, R150 to R156). No operation
writes a flag. -/

namespace Sys2Proof.Machine

/-- R7, R150: `a +64 b`; wrapping is decision D7 (UNVERIFIED, log 8). -/
def add64 (a b : Word) : Word := wrap64 (sint a + sint b)

/-- R7, R151: `a -64 b`. -/
def sub64 (a b : Word) : Word := wrap64 (sint a - sint b)

/-- R7, R152: `a *64 b`, the low 64 bits of the exact signed product. -/
def mul64 (a b : Word) : Word := wrap64 (sint a * sint b)

/-- R153, R156: the quotient for a divisor that is not 0, truncated toward zero; `INT64_MIN / -1` is the dividend
(decision D8: UNVERIFIED, log 8). -/
def div64 (a b : Word) : Word :=
  if sint a = int64Min ∧ sint b = -1 then a else wrap64 ((sint a).tdiv (sint b))

end Sys2Proof.Machine
end

