-- ==== Sys2Proof/Syntax.lean ====
section
/-! DEFINITION. The syntax of the block: registers, opcodes, cells, instruction formats, and the instructions. -/

namespace Sys2Proof

/-- R21: the eight registers, in the spec's order. There is no `RG`, `RH` or `RI` (R22). -/
inductive Reg where
  | ra | rb | rc | rd | re | rf | rj | rk
deriving DecidableEq, Repr

/-- R1, R87: the closed set of nine opcodes, in the catalogue's order. -/
inductive Opcode where
  | nop | hlt | add | sub | mul | div | sto | lod | exec
deriving DecidableEq, Repr

/-- R8, R81: a cell is exactly one of an opcode, an immediate and a register reference. -/
inductive Cell where
  | op (o : Opcode)
  | imm (v : Word)
  | reg (r : Reg)
deriving DecidableEq, Repr

/-- What the memory answers at one address (R54): a cell, or absent (`none`) at and past `CAPACITY`. -/
abbrev Fetched := Option Cell

/-- R82: the two operand kinds. `R` must be a register reference; `V` a register reference or an immediate. -/
inductive PosKind where
  | r | v
deriving DecidableEq, Repr

/-- R82: the three instruction formats. -/
inductive Format where
  | f0 | frv | frvv
deriving DecidableEq, Repr

/-- R82: the operand positions of a format, in cell order. -/
def Format.positions : Format → List PosKind
  | .f0 => []
  | .frv => [.r, .v]
  | .frvv => [.r, .v, .v]

/-- R82, R84: the instruction's length in cells, the opcode cell included. -/
def Format.cells : Format → Nat
  | .f0 => 1
  | .frv => 3
  | .frvv => 4

/-- R82, R87: every opcode has one fixed format. -/
def Opcode.format : Opcode → Format
  | .nop => .f0
  | .hlt => .f0
  | .add => .frvv
  | .sub => .frvv
  | .mul => .frvv
  | .div => .frvv
  | .sto => .frv
  | .lod => .frv
  | .exec => .f0

/-- R84: the length in cells is told by the opcode alone. -/
def Opcode.cells (o : Opcode) : Nat := o.format.cells

/-- One instruction as fetched (R80): the opcode, and for each operand position what the memory answers at its
address. An operand is a raw answer, because a cell of the wrong kind in a position and an operand past the end of
memory are not refused when an instruction is written down: running it faults (R91, R93; DEDUCED,
log 4). One constructor per row of
spec/opcode_table.json. -/
inductive Instr where
  /-- R140: no operation. -/
  | nop
  /-- R141: halt. -/
  | hlt
  /-- R150: `x[dest] <- src0 + src1`. -/
  | add (dest src0 src1 : Fetched)
  /-- R151: `x[dest] <- src0 - src1`. -/
  | sub (dest src0 src1 : Fetched)
  /-- R152: `x[dest] <- src0 * src1`. -/
  | mul (dest src0 src1 : Fetched)
  /-- R153: `x[dest] <- src0 / src1`, truncated. -/
  | div (dest src0 src1 : Fetched)
  /-- R170: `x[dest] <- source`. -/
  | sto (dest source : Fetched)
  /-- R171: `x[dest] <- mem[address]`. -/
  | lod (dest address : Fetched)
  /-- R190: dispatch the syscall whose code is in RA. -/
  | exec
deriving DecidableEq, Repr

/-- The opcode an instruction begins with. -/
def Instr.opcode : Instr → Opcode
  | .nop => .nop
  | .hlt => .hlt
  | .add _ _ _ => .add
  | .sub _ _ _ => .sub
  | .mul _ _ _ => .mul
  | .div _ _ _ => .div
  | .sto _ _ => .sto
  | .lod _ _ => .lod
  | .exec => .exec

/-- The operands in cell order (R82). -/
def Instr.operands : Instr → List Fetched
  | .nop => []
  | .hlt => []
  | .add d a b => [d, a, b]
  | .sub d a b => [d, a, b]
  | .mul d a b => [d, a, b]
  | .div d a b => [d, a, b]
  | .sto d v => [d, v]
  | .lod d a => [d, a]
  | .exec => []

end Sys2Proof
end

