-- ==== Sys2Proof/WellFormed.lean ====
section
/-! DEFINITION. When an instruction is well formed: every operand is present and of the kind its position requires
(R82). An ill-formed instruction can still be written down as cells; running it faults (R91, R93). -/

namespace Sys2Proof

/-- R82, R83: an `R` position takes a register reference only; a `V` position a register reference or an
immediate. -/
def PosKind.acceptsCell : PosKind → Cell → Bool
  | .r, .reg _ => true
  | .r, .imm _ => false
  | .r, .op _ => false
  | .v, .reg _ => true
  | .v, .imm _ => true
  | .v, .op _ => false

/-- The same for an answer of the memory: an absent operand is accepted nowhere (R91). -/
def PosKind.accepts (k : PosKind) : Fetched → Bool
  | none => false
  | some c => k.acceptsCell c

/-- R82: every operand is present and of the kind its position requires. -/
def Instr.wellFormed : Instr → Bool
  | .nop => true
  | .hlt => true
  | .add d a b => PosKind.r.accepts d && PosKind.v.accepts a && PosKind.v.accepts b
  | .sub d a b => PosKind.r.accepts d && PosKind.v.accepts a && PosKind.v.accepts b
  | .mul d a b => PosKind.r.accepts d && PosKind.v.accepts a && PosKind.v.accepts b
  | .div d a b => PosKind.r.accepts d && PosKind.v.accepts a && PosKind.v.accepts b
  | .sto d v => PosKind.r.accepts d && PosKind.v.accepts v
  | .lod d a => PosKind.r.accepts d && PosKind.v.accepts a
  | .exec => true

end Sys2Proof
end

