-- ==== Sys2Proof/Decode.lean ====
section
/-! DEFINITION. From canonical cell words (R85 to R88) to cells and instructions, rejecting by name, and back. -/

namespace Sys2Proof

/-- Why a list of words is no instruction. All are safe: the decoder gives no meaning (R89, decision D19). -/
inductive DecodeError where
  /-- Raised by `decode` on no words at all. -/
  | noWord
  /-- R89: a word with tag `11`. -/
  | reservedTag
  /-- R89: a tag `00` word with a payload above 8. -/
  | opcodePayload
  /-- R89: a tag `10` word with a payload above 7. -/
  | registerPayload
  /-- R91: the first word is a cell, but no opcode cell. -/
  | notAnOpcode
deriving DecidableEq, Repr

/-- R87: the opcode numbers. -/
def Opcode.number : Opcode → Nat
  | .nop => 0
  | .hlt => 1
  | .add => 2
  | .sub => 3
  | .mul => 4
  | .div => 5
  | .sto => 6
  | .lod => 7
  | .exec => 8

/-- R87: the opcode of a number; numbers 9 and above spell no opcode (R90). -/
def Opcode.ofNumber : Nat → Option Opcode
  | 0 => some .nop
  | 1 => some .hlt
  | 2 => some .add
  | 3 => some .sub
  | 4 => some .mul
  | 5 => some .div
  | 6 => some .sto
  | 7 => some .lod
  | 8 => some .exec
  | _ => none

/-- R86: the register numbers. -/
def Reg.number : Reg → Nat
  | .ra => 0
  | .rb => 1
  | .rc => 2
  | .rd => 3
  | .re => 4
  | .rf => 5
  | .rj => 6
  | .rk => 7

/-- R86: the register of a number; numbers 8 and above name no register. -/
def Reg.ofNumber : Nat → Option Reg
  | 0 => some .ra
  | 1 => some .rb
  | 2 => some .rc
  | 3 => some .rd
  | 4 => some .re
  | 5 => some .rf
  | 6 => some .rj
  | 7 => some .rk
  | _ => none

/-- R85: the tag, `w[65:64]`. -/
def cellTag (w : CellWord) : BitVec 2 := w.extractLsb' 64 2

/-- R85: the payload, `w[63:0]`. -/
def cellPayload (w : CellWord) : Word := w.extractLsb' 0 64

/-- R85 to R89: the cell a word spells. -/
def decodeCell (w : CellWord) : Except DecodeError Cell :=
  match (cellTag w).toNat with
  | 0 =>
    match Opcode.ofNumber (cellPayload w).toNat with
    | some o => .ok (.op o)
    | none => .error .opcodePayload
  | 1 => .ok (.imm (cellPayload w))
  | 2 =>
    match Reg.ofNumber (cellPayload w).toNat with
    | some r => .ok (.reg r)
    | none => .error .registerPayload
  | _ => .error .reservedTag

/-- The cells a list of words spells; the first word that spells none is the reason for a refusal. -/
def decodeWords : List CellWord → Except DecodeError (List Cell)
  | [] => .ok []
  | w :: ws =>
    match decodeCell w with
    | .error e => .error e
    | .ok c =>
      match decodeWords ws with
      | .error e => .error e
      | .ok cs => .ok (c :: cs)

/-- R80, R82: the instruction that an opcode cell begins, given what stands at the next three addresses. Answers
beyond the opcode's own operands are not used (R84). -/
def assemble (o : Opcode) (c1 c2 c3 : Fetched) : Instr :=
  match o with
  | .nop => .nop
  | .hlt => .hlt
  | .add => .add c1 c2 c3
  | .sub => .sub c1 c2 c3
  | .mul => .mul c1 c2 c3
  | .div => .div c1 c2 c3
  | .sto => .sto c1 c2
  | .lod => .lod c1 c2
  | .exec => .exec

/-- The decoder: the instruction at the head of a list of words, and the words after it. Total; it refuses by name.
Words that run out before the last operand leave that operand absent (R91: running such an instruction faults). -/
def decode : List CellWord → Except DecodeError (Instr × List CellWord)
  | [] => .error .noWord
  | w :: ws =>
    match decodeCell w with
    | .error e => .error e
    | .ok (.imm _) => .error .notAnOpcode
    | .ok (.reg _) => .error .notAnOpcode
    | .ok (.op o) =>
      match decodeWords (ws.take (o.cells - 1)) with
      | .error e => .error e
      | .ok cs => .ok (assemble o cs[0]? cs[1]? cs[2]?, ws.drop (o.cells - 1))

/-- `n` 66-bit words of a number's low `nbits` bits, word `k` in bits `66 k + 65` to `66 k`, every bit at `nbits` and
above 0 (DESIGN CHOICE, log 6). -/
def wordsOfNat : Nat → Nat → Nat → List CellWord
  | 0, _, _ => []
  | n + 1, nbits, w => BitVec.ofNat 66 (w % 2 ^ min nbits 66) :: wordsOfNat n (nbits - 66) (w / 2 ^ 66)

/-- The words of the longest instruction (4 cells, R84) that the low `nbits` bits of `w` and zeros above give. -/
def tableWords (nbits w : Nat) : List CellWord := wordsOfNat 4 nbits w

/-- The instruction the decoder reads from the low `nbits` bits of `w`, every bit above them 0 (DESIGN CHOICE, log 6). -/
def decodeTableWord (nbits w : Nat) : Option Instr :=
  match decode (tableWords nbits w) with
  | .ok (i, _) => some i
  | .error _ => none

/-- R85 to R88: the canonical word of a cell. -/
def encodeCell : Cell → CellWord
  | .op o => (0#2 : BitVec 2) ++ BitVec.ofNat 64 o.number
  | .imm v => (1#2 : BitVec 2) ++ v
  | .reg r => (2#2 : BitVec 2) ++ BitVec.ofNat 64 r.number

/-- R93: the words of an instruction, the opcode cell first and then its operand cells in order. -/
def encode (i : Instr) : List CellWord :=
  encodeCell (.op i.opcode) :: (i.operands.filterMap id).map encodeCell

end Sys2Proof
end

