-- ==== Sys2Proof/Config.lean ====
section
/-! DEFINITION. What an implementation fixes and the spec leaves open: the number of cells of the memory. -/

namespace Sys2Proof.Config

/-- R5 and decision D1: `CAPACITY` is OPEN, a natural number, 0 allowed. It has no body, so nothing can be proved
of its value. Only `State.reset` uses it; every other definition reads the capacity that the memory of the state
carries (DESIGN CHOICE, log 2; safe: every claim holds for every capacity). -/
opaque capacity : Nat

end Sys2Proof.Config
end

