-- ==== Sys2Proof/Machine/State.lean ====
section
/-! DEFINITION. The state of the block (R20), as plain data, and the state right after reset (R240, R241). -/

namespace Sys2Proof.Machine

/-- R21: the register file, eight registers of 64 bits. -/
structure RegFile where
  ra : Word
  rb : Word
  rc : Word
  rd : Word
  re : Word
  rf : Word
  rj : Word
  rk : Word
deriving DecidableEq, Repr

/-- R31, R50: the Memory Store. `capacity` is the number of cells, fixed by `create`. `cells` lists, by strictly
rising address, exactly the cells that differ from the fill `Op(HLT)`, so that equal memories are equal data (DESIGN CHOICE, log 3).
`cursor` is the append position (R53). -/
structure Memory where
  capacity : Nat
  cells : List (Nat × Cell)
  cursor : Nat
deriving DecidableEq, Repr

/-- R210, R211: the five faults of the block. A sub-step raises one by writing it to the `fault` latch of the next
state (R10, R215); the model's `step` and `exec` never end in the host's outcome `fault`, since the spec gives the
state after each of these (DEDUCED, log 1). -/
inductive Fault where
  /-- Raised by LOD with a resolved address below 0 or at or past `CAPACITY` (R171). Safe: the spec's own fault. -/
  | outOfBounds
  /-- Raised by every fetch at or past `CAPACITY` (R110). Safe: the spec's own fault. -/
  | unexpectedEndOfProgram
  /-- Raised by a cell of the wrong kind for its position: an operand (R112, R113), a non-opcode cell where an
  opcode is expected (R111), the cell that LOD loads (R171). Safe: the spec's own fault. -/
  | invalidOperandKind
  /-- Raised by DIV with a zero divisor (R153). Safe: the spec's own fault. -/
  | divisionByZero
  /-- Raised by EXEC with a code other than 0 (R191). Safe: the spec's own fault. -/
  | unsupportedSyscall
deriving DecidableEq, Repr

/-- Why an instruction has no meaning. -/
inductive Refusal where
  /-- Raised by an arm of `exec` for an instruction the model gives no meaning. No arm raises it: all nine have
  theirs. Safe. -/
  | notModelled (mnemonic : String)
deriving DecidableEq, Repr

/-- R20: the block's state, exactly these components and no others. -/
structure State where
  /-- R31: the memory cells, their number, and the loader's cursor. -/
  mem : Memory
  /-- R21: the register file. -/
  regs : RegFile
  /-- R25: the address of the next cell to fetch. -/
  ip : Nat
  /-- R26: the run flag. -/
  run : Bool
  /-- R28: the fault latch. -/
  fault : Option Fault
  /-- R29: the exit latch. -/
  exit : Option Word
deriving DecidableEq, Repr

/-- R24: every register is 0. -/
def RegFile.zero : RegFile := ⟨0, 0, 0, 0, 0, 0, 0, 0⟩

/-- R241: the machine right after reset, over a memory as `create(CAPACITY)` leaves it (R50): the loader has written
nothing. `Sys2Proof.Machine.construct` is the reset over a memory that a loader has written. -/
def State.reset : State where
  mem := { capacity := Config.capacity, cells := [], cursor := 0 }
  regs := RegFile.zero
  ip := 0
  run := true
  fault := none
  exit := none

end Sys2Proof.Machine
end

