-- ==== Sys2Proof/Machine/Ops.lean ====
section
/-! DEFINITION. The named operations over memory, registers and latches: the Memory Store (R50 to R55), the reset
(R240), the register file (R23), raising a fault (R10, R215), and the sub-step that a fault ends (R11). -/

namespace Sys2Proof.Machine

/-- R50: what `create` writes to every cell, and so what a cell that nothing has written reads as. -/
def fillCell : Cell := .op .hlt

/-- The cell at an address, by the list of cells that differ from the fill. -/
def cellsRead : List (Nat × Cell) → Nat → Cell
  | [], _ => fillCell
  | (k, d) :: rest, a => if a = k then d else cellsRead rest a

/-- A cell put into the list, or taken out of it where it is the fill; the list stays in its canonical form. -/
def cellsWrite : List (Nat × Cell) → Nat → Cell → List (Nat × Cell)
  | [], a, c => if c = fillCell then [] else [(a, c)]
  | (k, d) :: rest, a, c =>
    if a < k then
      if c = fillCell then (k, d) :: rest else (a, c) :: (k, d) :: rest
    else if a = k then
      if c = fillCell then rest else (a, c) :: rest
    else (k, d) :: cellsWrite rest a c

/-- The canonical form: addresses strictly rising, no listed cell equal to the fill, none at or past `CAPACITY`; and
the cursor in `0 .. CAPACITY` (R20). -/
abbrev Memory.wf (m : Memory) : Prop :=
  m.cells.Pairwise (fun p q => p.1 < q.1) ∧
    (∀ p ∈ m.cells, p.2 ≠ fillCell ∧ p.1 < m.capacity) ∧ m.cursor ≤ m.capacity

/-- R9 `MemRead(a, 1)`. -/
def Memory.memRead (m : Memory) (a : Nat) : Cell := cellsRead m.cells a

/-- R9 `MemWrite(a, 1, c)`. Only the loader path uses it (R57). -/
def Memory.memWrite (m : Memory) (a : Nat) (c : Cell) : Memory :=
  { m with cells := cellsWrite m.cells a c }

/-- R52, R53: the result of a loader's write. `outOfBounds` goes back to the loader; it is no fault of the block
(R212). -/
inductive LoadResult where
  | ok | outOfBounds
deriving DecidableEq, Repr

/-- R50 `create(capacity)`: every cell `Op(HLT)`, the cursor 0. -/
def Memory.create (capacity : Nat) : Memory := { capacity := capacity, cells := [], cursor := 0 }

/-- R54 `get(address)`: the cell, or absent at and past `CAPACITY`. -/
def Memory.get (m : Memory) (a : Nat) : Fetched :=
  if a < m.capacity then some (m.memRead a) else none

/-- R52 `set(address, cell)`. -/
def Memory.set (m : Memory) (a : Nat) (c : Cell) : LoadResult × Memory :=
  if m.capacity ≤ a then (.outOfBounds, m) else (.ok, m.memWrite a c)

/-- R53 `appendSequential(cell)`. -/
def Memory.appendSequential (m : Memory) (c : Cell) : LoadResult × Memory :=
  if m.capacity ≤ m.cursor then (.outOfBounds, m)
  else (.ok, { m.memWrite m.cursor c with cursor := m.cursor + 1 })

/-- R242: a loader's appends, one after another; the first that fails is the result. -/
def Memory.appendAll (m : Memory) : List Cell → LoadResult × Memory
  | [] => (.ok, m)
  | c :: cs =>
    match m.appendSequential c with
    | (.outOfBounds, m') => (.outOfBounds, m')
    | (.ok, m') => m'.appendAll cs

/-- The cells at `a`, `a + 1`, … up to `n` of them, as far as the memory goes. -/
def Memory.cellsFrom (m : Memory) (a : Nat) : Nat → List Cell
  | 0 => []
  | n + 1 =>
    match m.get a with
    | none => []
    | some c => c :: m.cellsFrom (a + 1) n

/-- R240 `construct(memory)`: reset, over the memory as the loader left it. -/
def construct (m : Memory) : State where
  mem := m
  regs := RegFile.zero
  ip := 0
  run := true
  fault := none
  exit := none

/-- R23: a register read; total. -/
def RegFile.read (f : RegFile) : Reg → Word
  | .ra => f.ra
  | .rb => f.rb
  | .rc => f.rc
  | .rd => f.rd
  | .re => f.re
  | .rf => f.rf
  | .rj => f.rj
  | .rk => f.rk

/-- R23: a register write; total, and it replaces the old value. -/
def RegFile.write (f : RegFile) (r : Reg) (v : Word) : RegFile :=
  match r with
  | .ra => { f with ra := v }
  | .rb => { f with rb := v }
  | .rc => { f with rc := v }
  | .rd => { f with rd := v }
  | .re => { f with re := v }
  | .rf => { f with rf := v }
  | .rj => { f with rj := v }
  | .rk => { f with rk := v }

/-- R9 `x[r]`. -/
def State.readReg (s : State) (r : Reg) : Word := s.regs.read r

/-- R9 `x[r] <- v`. -/
def State.writeReg (s : State) (r : Reg) (v : Word) : State := { s with regs := s.regs.write r v }

/-- R110: `ip <- ip + 1`. -/
def State.advance (s : State) : State := { s with ip := s.ip + 1 }

/-- R10, R215, taking a fault: the latch takes the kind; `run`, `ip`, the registers and the memory stay as the last
completed sub-step left them. There is no handler, no saved register and no return (R217). -/
def State.raise (s : State) (f : Fault) : State := { s with fault := some f }

/-- R141, R191: `run <- 0`. -/
def State.clearRun (s : State) : State := { s with run := false }

/-- R191: `exit <- v`. -/
def State.latchExit (s : State) (v : Word) : State := { s with exit := some v }

/-- R10, R11: what a sub-step answers. Either it is done, with its value and the state it leaves, or it has raised a
fault, and nothing after it in the step runs. -/
inductive SubStep (α : Type) where
  | done (value : α) (s : State)
  | raised (s : State)
deriving Repr

/-- R11: one sub-step after another; a raised fault ends the sequence (R10). -/
def SubStep.bind {α β : Type} (m : SubStep α) (f : α → State → SubStep β) : SubStep β :=
  match m with
  | .done a s => f a s
  | .raised s => .raised s

/-- The state a finished or faulted instruction leaves is the next state (DEDUCED, log 1). -/
def SubStep.outcome (m : SubStep Unit) : Host.Outcome State Fault Refusal :=
  match m with
  | .done _ s => .next s
  | .raised s => .next s

/-- Words put at rising addresses; one that spells no cell is not put anywhere, since memory holds cells only (R89,
log 7). -/
def Memory.placeWords (m : Memory) : Nat → List CellWord → Memory
  | _, [] => m
  | a, w :: ws =>
    match decodeCell w with
    | .ok c => (m.set a c).2.placeWords (a + 1) ws
    | .error _ => m.placeWords (a + 1) ws

/-- `n` more cells of memory, each the fill (DESIGN CHOICE, log 5). -/
def Memory.grow (m : Memory) (n : Nat) : Memory := { m with capacity := m.capacity + n }

end Sys2Proof.Machine
end

