-- ==== Sys2Proof/Machine/Operands.lean ====
section
/-! DEFINITION. Fetching: the fetch unit (R110), the decoder's fetch of one whole instruction (R111), and the operand
forms (R112, R113). Each operand is fetched, kind-checked and resolved before the next one is fetched (R117). -/

namespace Sys2Proof.Machine

/-- R110 `fetch_next()`, given what `get(ip)` answers: an absent cell raises `UnexpectedEndOfProgram` and leaves
`ip`; a cell is returned and `ip` moves past it. -/
def accept (answer : Fetched) (s : State) : SubStep Cell :=
  match answer with
  | none => .raised (s.raise .unexpectedEndOfProgram)
  | some c => .done c s.advance

/-- R110 `fetch_next()`. -/
def fetchNext (s : State) : SubStep Cell := accept (s.mem.get s.ip) s

/-- R111: fetch the opcode cell and find what stands at the next three addresses. A cell that is no opcode raises
`InvalidOperandKind` after the fetch (decision D10: UNVERIFIED, log 8). In the state it leaves, `ip` is the opcode cell's address plus 1. Reading the
operand cells has no effect; their checks are the meaning's (DEDUCED, log 4). -/
def fetchInstr (s : State) : SubStep Instr :=
  (fetchNext s).bind fun c s =>
    match c with
    | .op o => .done (assemble o (s.mem.get s.ip) (s.mem.get (s.ip + 1)) (s.mem.get (s.ip + 2))) s
    | .imm _ => .raised (s.raise .invalidOperandKind)
    | .reg _ => .raised (s.raise .invalidOperandKind)

/-- R112 `fetch_dest()`: an operand in an R position names a register, which is not read. -/
def fetchDest (answer : Fetched) (s : State) : SubStep Reg :=
  (accept answer s).bind fun c s =>
    match c with
    | .reg r => .done r s
    | .imm _ => .raised (s.raise .invalidOperandKind)
    | .op _ => .raised (s.raise .invalidOperandKind)

/-- R83: the value of a cell in a V position: a register's value or the literal as it is; an opcode cell has none. -/
def resolve (c : Cell) (s : State) : Option Word :=
  match c with
  | .reg r => some (s.readReg r)
  | .imm v => some v
  | .op _ => none

/-- R113 `fetch_value()`: an operand in a V position, resolved when it is fetched. -/
def fetchValue (answer : Fetched) (s : State) : SubStep Word :=
  (accept answer s).bind fun c s =>
    match resolve c s with
    | some v => .done v s
    | none => .raised (s.raise .invalidOperandKind)

/-- R82 format `FRV`: `dest`, then one value. -/
def fetchRV (dest value : Fetched) (s : State) : SubStep (Reg × Word) :=
  (fetchDest dest s).bind fun d s =>
    (fetchValue value s).bind fun v s => .done (d, v) s

/-- R82 format `FRVV`: `dest`, then `src0`, then `src1`. -/
def fetchRVV (dest src0 src1 : Fetched) (s : State) : SubStep (Reg × Word × Word) :=
  (fetchDest dest s).bind fun d s =>
    (fetchValue src0 s).bind fun a s =>
      (fetchValue src1 s).bind fun b s => .done (d, a, b) s

end Sys2Proof.Machine
end

