-- ==== Sys2Proof/Machine/Arithmetic.lean ====
section
/-! DEFINITION. The meanings of ADD, SUB, MUL and DIV (spec/42_arithmetic.md). At entry `ip` is the opcode cell's
address plus 1. -/

namespace Sys2Proof.Machine

/-- R82, R117: an FRVV instruction without a check of its own: three operands, then the one register write. -/
def binaryOp (f : Word → Word → Word) (dest src0 src1 : Fetched) (s : State) : SubStep Unit :=
  (fetchRVV dest src0 src1 s).bind fun (d, a, b) s => .done () (s.writeReg d (f a b))

/-- R150 ADD: `x[dest] <- src0 +64 src1`. -/
def execAdd (dest src0 src1 : Fetched) (s : State) : Host.Outcome State Fault Refusal :=
  (binaryOp add64 dest src0 src1 s).outcome

/-- R151 SUB: `x[dest] <- src0 -64 src1`. -/
def execSub (dest src0 src1 : Fetched) (s : State) : Host.Outcome State Fault Refusal :=
  (binaryOp sub64 dest src0 src1 s).outcome

/-- R152 MUL: `x[dest] <- src0 *64 src1`. -/
def execMul (dest src0 src1 : Fetched) (s : State) : Host.Outcome State Fault Refusal :=
  (binaryOp mul64 dest src0 src1 s).outcome

/-- R153 DIV: a zero divisor raises `DivisionByZero` after all operand checks; else the truncated quotient. -/
def execDiv (dest src0 src1 : Fetched) (s : State) : Host.Outcome State Fault Refusal :=
  ((fetchRVV dest src0 src1 s).bind fun (d, a, b) s =>
    if sint b = 0 then .raised (s.raise .divisionByZero)
    else .done () (s.writeReg d (div64 a b))).outcome

end Sys2Proof.Machine
end

