-- ==== Sys2Proof/Machine/Control.lean ====
section
/-! DEFINITION. The meanings of NOP and HLT (spec/41_control.md). At entry `ip` is the opcode cell's address plus 1. -/

namespace Sys2Proof.Machine

/-- R140 NOP: no effect. -/
def execNop (s : State) : Host.Outcome State Fault Refusal := .next s

/-- R141 HLT: `run <- 0`. -/
def execHlt (s : State) : Host.Outcome State Fault Refusal := .next s.clearRun

end Sys2Proof.Machine
end

