-- ==== Sys2Proof/Machine/DataMovement.lean ====
section
/-! DEFINITION. The meanings of STO and LOD (spec/43_data_movement.md). At entry `ip` is the opcode cell's address
plus 1. -/

namespace Sys2Proof.Machine

/-- R170 STO: `x[dest] <- source`. It writes a register, not memory (R57). -/
def execSto (dest source : Fetched) (s : State) : Host.Outcome State Fault Refusal :=
  ((fetchRV dest source s).bind fun (d, v) s => .done () (s.writeReg d v)).outcome

/-- R171: the data read path. The signed value is the address; outside `0 .. CAPACITY-1` it raises `OutOfBounds`
(decision D11: UNVERIFIED, log 8), and a loaded cell that is no immediate raises `InvalidOperandKind` (decision D12: UNVERIFIED, log 8). -/
def loadImmediate (a : Word) (s : State) : SubStep Word :=
  if sint a < 0 ∨ s.mem.capacity ≤ (sint a).toNat then .raised (s.raise .outOfBounds)
  else
    match s.mem.memRead (sint a).toNat with
    | .imm v => .done v s
    | .op _ => .raised (s.raise .invalidOperandKind)
    | .reg _ => .raised (s.raise .invalidOperandKind)

/-- R171 LOD: `x[dest] <-` the immediate in the cell at the resolved address. -/
def execLod (dest address : Fetched) (s : State) : Host.Outcome State Fault Refusal :=
  ((fetchRV dest address s).bind fun (d, a) s =>
    (loadImmediate a s).bind fun v s => .done () (s.writeReg d v)).outcome

end Sys2Proof.Machine
end

