-- ==== Sys2Proof/Machine/Syscall.lean ====
section
/-! DEFINITION. The meaning of EXEC and the syscall dispatcher (spec/44_syscall.md). At entry `ip` is the opcode
cell's address plus 1. -/

namespace Sys2Proof.Machine

/-- R191 `dispatch(code, snap)`: all 64 bits of the code are compared. Code 0 is Exit, with the status the snapshot
holds in RB; every other code, those of Write and Input among them, raises `UnsupportedSyscall`. -/
def dispatchSyscall (code : Word) (snap : RegFile) (s : State) : SubStep Unit :=
  if sint code = 0 then .done () (s.latchExit (snap.read .rb)).clearRun
  else .raised (s.raise .unsupportedSyscall)

/-- R190 EXEC: the code is `x[RA]`, the snapshot the whole register file (R193). -/
def execExec (s : State) : Host.Outcome State Fault Refusal :=
  (dispatchSyscall (s.readReg .ra) s.regs s).outcome

end Sys2Proof.Machine
end

