-- ==== Sys2Proof/Machine/Dispatch.lean ====
section
/-! DEFINITION. The meaning of every instruction, one arm per row of spec/opcode_table.json (R111). -/

namespace Sys2Proof.Machine

def exec (i : Instr) (s : State) : Host.Outcome State Fault Refusal :=
  match i with
  | .nop => Sys2Proof.Machine.execNop s
  | .hlt => Sys2Proof.Machine.execHlt s
  | .add dest src0 src1 => Sys2Proof.Machine.execAdd dest src0 src1 s
  | .sub dest src0 src1 => Sys2Proof.Machine.execSub dest src0 src1 s
  | .mul dest src0 src1 => Sys2Proof.Machine.execMul dest src0 src1 s
  | .div dest src0 src1 => Sys2Proof.Machine.execDiv dest src0 src1 s
  | .sto dest source => Sys2Proof.Machine.execSto dest source s
  | .lod dest address => Sys2Proof.Machine.execLod dest address s
  | .exec => Sys2Proof.Machine.execExec s

end Sys2Proof.Machine
end

