-- ==== Sys2Proof/Machine/Flags.lean ====
section
/-! DEFINITION. The block has no condition flags (R20, R154). What an instruction or the host reads of its status is
here: the engine status from `run` and `fault` (R27), and the codes of the `fault` and `exit` latches (R30, R211). -/

namespace Sys2Proof.Machine

/-- R27: the three states of the engine. -/
inductive EngineStatus where
  | running
  | halted
  | faulted (f : Fault)
deriving DecidableEq, Repr

/-- R27: the status is a function of `run` and `fault`; a fault goes before the run flag. -/
def State.status (s : State) : EngineStatus :=
  match s.fault with
  | some f => .faulted f
  | none => if s.run then .running else .halted

/-- R111, R115: `fault = none and run = 1`. -/
def State.isRunning (s : State) : Bool := s.run && s.fault.isNone

/-- R211: the 3-bit code of a fault. -/
def Fault.code : Fault → BitVec 3
  | .outOfBounds => 1
  | .unexpectedEndOfProgram => 2
  | .invalidOperandKind => 3
  | .divisionByZero => 4
  | .unsupportedSyscall => 5

/-- R30: the `fault` latch as the host reads it, 0 for none. -/
def State.faultCode (s : State) : BitVec 3 :=
  match s.fault with
  | some f => f.code
  | none => 0

/-- R30: `exit_valid`. -/
def State.exitValid (s : State) : Bool := s.exit.isSome

/-- R30: `exit_status`, 0 while `exit_valid` is 0. -/
def State.exitStatus (s : State) : Word := s.exit.getD 0

end Sys2Proof.Machine
end

