-- ==== Sys2Proof/Machine/Step.lean ====
section
/-! DEFINITION. One step of the engine (R111), and the placing of one instruction where a step fetches it. -/

namespace Sys2Proof.Machine

/-- R111 `step()`: an engine that is Halted or Faulted changes no state (R116; decision D16: UNVERIFIED,
log 8); else one fetch, decode and execution
of one whole instruction. The result `step()` gives the host is `Sys2Proof.Machine.stepCall` (R114). -/
def step (s : State) : Host.Outcome State Fault Refusal :=
  if s.isRunning then
    match fetchInstr s with
    | .done i s' => exec i s'
    | .raised s' => .next s'
  else .next s

/-- `s` with the instruction that the low `nbits` bits of `w` give (zeros above them, four cells in all) at `ip`, and
with what a fetch there needs: room for four cells, and an engine that runs (DESIGN CHOICE, log 5). It stands for the loader's work
before the run (R242). -/
def State.withFetchWord (s : State) (nbits w : Nat) : State :=
  { s with
    mem := (s.mem.grow (s.ip + 4)).placeWords s.ip (tableWords nbits w)
    run := true
    fault := none }

end Sys2Proof.Machine
end

