-- ==== Sys2Proof/Machine/Run.lean ====
section
/-! DEFINITION. What the host's calls `step()` and `run()` return (R114, R115). -/

namespace Sys2Proof.Machine

/-- R115: the outcome of a run. -/
inductive RunOutcome where
  | faulted (f : Fault)
  | exited (status : Word)
  | halted
deriving DecidableEq, Repr

/-- R114, R116: the result of one `step()`: `ok`, or the outcome of an engine that has stopped. -/
inductive StepResult where
  | ok
  | ended (o : RunOutcome)
deriving DecidableEq, Repr

/-- R115 `outcome()`: a fault goes before an exit status, and an exit status before a plain halt. -/
def State.outcome (s : State) : RunOutcome :=
  match s.fault with
  | some f => .faulted f
  | none =>
    match s.exit with
    | some v => .exited v
    | none => .halted

/-- The state a step leaves. A step always has one (DEDUCED, log 1); the other two outcomes leave `s`. -/
def stepState (s : State) : State :=
  match step s with
  | .next t => t
  | .fault _ => s
  | .refused _ => s

/-- R114, R116: what a call of `step()` returns. An engine that has stopped returns its outcome; a running one `ok`,
or `fault F` if a sub-step raised `F`. -/
def stepResult (s : State) : StepResult :=
  if s.isRunning then
    match (stepState s).fault with
    | none => .ok
    | some f => .ended (.faulted f)
  else .ended s.outcome

/-- R114: a call of `step()`: the result and the state after it. -/
def stepCall (s : State) : StepResult × State := (stepResult s, stepState s)

/-- R115: the loop of `run()`, for at most `n` steps. -/
def runLoop : Nat → State → State
  | 0, s => s
  | n + 1, s => if s.isRunning then runLoop n (stepState s) else s

/-- R115 `run()`. `CAPACITY + 1` steps are enough for every run (R121), so the bound cuts none short (DEDUCED,
log 10). -/
def runCall (s : State) : RunOutcome × State :=
  ((runLoop (s.mem.capacity + 1) s).outcome, runLoop (s.mem.capacity + 1) s)

end Sys2Proof.Machine
end

