-- ==== Sys2Proof/Safety.lean ====
section
/-! DEFINITION. What counts as a consistent state and as a safe step, in the terms that claims use. -/

namespace Sys2Proof.Machine

/-- The invariant of the Run phase: the memory is in its canonical form (DESIGN CHOICE, log 3), `ip` is in `0 .. CAPACITY` (R25), an
exit status is held only after `run` was cleared (R29, R191), and a fault leaves `run` set (R26). -/
def State.Inv (s : State) : Prop :=
  s.mem.wf ∧ s.ip ≤ s.mem.capacity ∧ (s.exit.isSome → s.run = false) ∧ (s.fault.isSome → s.run = true)

/-- A step is safe if it does not end in a fault of the block (R27). -/
def State.SafeStep (s : State) : Prop := ∃ t, step s = .next t ∧ t.fault = none

/-- Every cell of memory reads as before, and the memory's size and cursor are unchanged (R57). -/
def State.SameMemory (s t : State) : Prop :=
  (∀ a, t.mem.get a = s.mem.get a) ∧ t.mem.capacity = s.mem.capacity ∧ t.mem.cursor = s.mem.cursor

/-- `run`, `fault` and `exit` are unchanged. -/
def State.SameLatches (s t : State) : Prop := t.run = s.run ∧ t.fault = s.fault ∧ t.exit = s.exit

/-- The frame of an instruction that writes register `r` alone: every other register, every cell of memory, and the
run, fault and exit latches are unchanged (R23, R118). `ip` may change. -/
def State.OnlyWrites (r : Reg) (s t : State) : Prop :=
  (∀ r', r' ≠ r → t.readReg r' = s.readReg r') ∧ s.SameMemory t ∧ s.SameLatches t

/-- The frame of a fault: every register, every cell of memory, `run` and `exit` are unchanged, the fault latch holds
`f`, and `ip` is `n` (R118, R215). -/
def State.FaultedAt (f : Fault) (n : Nat) (s t : State) : Prop :=
  (∀ r, t.readReg r = s.readReg r) ∧ s.SameMemory t ∧ t.run = s.run ∧ t.exit = s.exit ∧
    t.fault = some f ∧ t.ip = n

end Sys2Proof.Machine
end

