-- ==== Sys2Proof/Certificates/Slice0/Obligations.lean ====
section
/-! DEFINITION. The statements for the provers. A statement whose content rests on a decision `D<n>` of
spec/92_eei_decisions.md, on an inference the spec marks `[derived]`, or on a choice of this model (log `<n>`) says
so in its docstring. -/

open Sys2Proof Sys2Proof.Machine

/-! ## Encoding -/

/-- Decoding the words of a well-formed instruction gives it back and leaves the words after it (30_encoding.md
sections 1 to 3; the numeric words are the spec's decision D18). -/
def Obligations.DecodeOfEncodeIsTheInstruction : Prop :=
  ∀ (i : Instr) (ws : List CellWord), i.wellFormed = true → decode (encode i ++ ws) = .ok (i, ws)

/-- A cell and its canonical word determine each other (30_encoding.md section 3; decision D18). -/
def Obligations.CellAndItsWordDetermineEachOther : Prop :=
  (∀ c : Cell, decodeCell (encodeCell c) = .ok c) ∧
    ∀ (w : CellWord) (c : Cell), decodeCell w = .ok c → encodeCell c = w

/-- Exactly the words of the three reserved kinds spell no cell, each refused by its own name; the tag is bits 65 and
64, the payload bits 63 to 0 (30_encoding.md section 4; decision D19). -/
def Obligations.ExactlyTheReservedWordsAreRefused : Prop :=
  ∀ w : CellWord,
    (decodeCell w = .error .reservedTag ↔ w.toNat / 2 ^ 64 = 3) ∧
    (decodeCell w = .error .opcodePayload ↔ w.toNat / 2 ^ 64 = 0 ∧ 8 < w.toNat % 2 ^ 64) ∧
    (decodeCell w = .error .registerPayload ↔ w.toNat / 2 ^ 64 = 2 ∧ 7 < w.toNat % 2 ^ 64) ∧
    decodeCell w ≠ .error .noWord ∧ decodeCell w ≠ .error .notAnOpcode

/-- Every opcode's and every register's canonical word, with the opcode's length in cells, and three immediates
(30_encoding.md section 3, the two tables; decision D18). -/
def Obligations.OpcodeRegisterAndImmediateWords : Prop :=
  [Opcode.nop, .hlt, .add, .sub, .mul, .div, .sto, .lod, .exec].map
      (fun o => (encodeCell (.op o), o.cells)) =
    [(0x00000000000000000#66, 1), (0x00000000000000001#66, 1), (0x00000000000000002#66, 4),
      (0x00000000000000003#66, 4), (0x00000000000000004#66, 4), (0x00000000000000005#66, 4),
      (0x00000000000000006#66, 3), (0x00000000000000007#66, 3), (0x00000000000000008#66, 1)] ∧
  [Reg.ra, .rb, .rc, .rd, .re, .rf, .rj, .rk].map (fun r => encodeCell (.reg r)) =
    [0x20000000000000000#66, 0x20000000000000001#66, 0x20000000000000002#66, 0x20000000000000003#66,
      0x20000000000000004#66, 0x20000000000000005#66, 0x20000000000000006#66, 0x20000000000000007#66] ∧
  [(-1 : Word), 0x8000000000000000#64, 0x7FFFFFFFFFFFFFFF#64].map (fun v => encodeCell (.imm v)) =
    [0x1FFFFFFFFFFFFFFFF#66, 0x18000000000000000#66, 0x17FFFFFFFFFFFFFFF#66]

/-- Words written out from the spec's listings decode to the instructions they stand for (30_encoding.md section 5,
95_test_vectors.md). -/
def Obligations.WrittenOutWordsDecode : Prop :=
  decode [0x00000000000000002#66, 0x20000000000000000#66, 0x10000000000000001#66, 0x10000000000000002#66] =
      .ok (.add (some (.reg .ra)) (some (.imm 1)) (some (.imm 2)), []) ∧
  decode [0x00000000000000005#66, 0x20000000000000003#66, 0x20000000000000002#66, 0x10000000000000002#66] =
      .ok (.div (some (.reg .rd)) (some (.reg .rc)) (some (.imm 2)), []) ∧
  decode [0x00000000000000006#66, 0x20000000000000002#66, 0x1FFFFFFFFFFFFFFF9#66, 0x00000000000000001#66] =
      .ok (.sto (some (.reg .rc)) (some (.imm (-7))), [0x00000000000000001#66]) ∧
  decode [0x00000000000000007#66, 0x20000000000000000#66, 0x10000000000000009#66] =
      .ok (.lod (some (.reg .ra)) (some (.imm 9)), []) ∧
  decode [0x00000000000000008#66] = .ok (.exec, [])

/-- R84: the length is told by the opcode cell alone, 1 cell for `F0`, 3 for `FRV`, 4 for `FRVV`, whatever words
follow. -/
def Obligations.LengthIsToldByTheOpcodeCellAlone : Prop :=
  (∀ (o : Opcode) (ws rest : List CellWord) (i : Instr),
    decode (encodeCell (.op o) :: ws) = .ok (i, rest) →
      i.opcode = o ∧
      (o.format = .f0 → rest = ws) ∧
      (o.format = .frv → rest = ws.drop 2) ∧
      (o.format = .frvv → rest = ws.drop 3)) ∧
  (∀ o : Opcode, (o.format = .f0 ↔ o = .nop ∨ o = .hlt ∨ o = .exec) ∧
    (o.format = .frv ↔ o = .sto ∨ o = .lod) ∧
    (o.format = .frvv ↔ o = .add ∨ o = .sub ∨ o = .mul ∨ o = .div) ∧
    (o.format = .f0 → o.cells = 1) ∧ (o.format = .frv → o.cells = 3) ∧ (o.format = .frvv → o.cells = 4))

/-! ## Fetch, decode and the step -/

/-- A running engine runs the instruction that the words of the cells at `ip` decode to, with `ip` moved past the
opcode cell (40_fetch_decode.md section 2; that the operands come with the decoded instruction is log 4). It holds of
ill-formed and of cut-off instructions too. -/
def Obligations.StepRunsTheDecodedInstruction : Prop :=
  ∀ (s : State) (i : Instr) (rest : List CellWord), s.isRunning = true →
    decode ((s.mem.cellsFrom s.ip 4).map encodeCell) = .ok (i, rest) →
      step s = exec i { s with ip := s.ip + 1 }

/-- The fetch unit: at or past `CAPACITY` it raises `UnexpectedEndOfProgram` and leaves `ip`; below, it returns the
cell at `ip` and adds 1 to `ip` (40_fetch_decode.md section 1; decisions D2 and D13). -/
def Obligations.FetchReturnsTheCellAtIpOrFaults : Prop :=
  ∀ s : State,
    (s.mem.capacity ≤ s.ip → fetchNext s = .raised { s with fault := some .unexpectedEndOfProgram }) ∧
    (s.ip < s.mem.capacity → ∃ c, s.mem.get s.ip = some c ∧ fetchNext s = .done c { s with ip := s.ip + 1 })

/-- R112: `fetch_dest()` fetches one cell; a register reference gives the register, without reading it; an immediate
or an opcode cell raises `InvalidOperandKind`. -/
def Obligations.DestOperandMustBeARegisterReference : Prop :=
  ∀ s : State,
    (∀ t, fetchNext s = .raised t → fetchDest (s.mem.get s.ip) s = .raised t) ∧
    (∀ r t, fetchNext s = .done (.reg r) t →
      fetchDest (s.mem.get s.ip) s = .done r t ∧
      ∀ f : RegFile, fetchDest (s.mem.get s.ip) { s with regs := f } = .done r { t with regs := f }) ∧
    (∀ v t, fetchNext s = .done (.imm v) t →
      fetchDest (s.mem.get s.ip) s = .raised { t with fault := some .invalidOperandKind }) ∧
    (∀ o t, fetchNext s = .done (.op o) t →
      fetchDest (s.mem.get s.ip) s = .raised { t with fault := some .invalidOperandKind })

/-- `fetch_value()` fetches one cell; a register reference gives the register's value, an immediate the literal
unchanged; an opcode cell raises `InvalidOperandKind` (40_fetch_decode.md section 2, 30_encoding.md section 2;
decision D9). -/
def Obligations.ValueOperandIsARegisterOrALiteral : Prop :=
  ∀ s : State,
    (∀ t, fetchNext s = .raised t → fetchValue (s.mem.get s.ip) s = .raised t) ∧
    (∀ r t, fetchNext s = .done (.reg r) t →
      fetchValue (s.mem.get s.ip) s = .done (s.readReg r) t ∧ resolve (.reg r) s = some (s.readReg r)) ∧
    (∀ v t, fetchNext s = .done (.imm v) t →
      fetchValue (s.mem.get s.ip) s = .done v t ∧ resolve (.imm v) s = some v) ∧
    (∀ o t, fetchNext s = .done (.op o) t →
      fetchValue (s.mem.get s.ip) s = .raised { t with fault := some .invalidOperandKind } ∧
      resolve (.op o) s = none)

/-- A running engine whose `ip` stands at or past `CAPACITY` takes `UnexpectedEndOfProgram` and nothing else changes;
one whose `ip` stands at a cell that is no opcode moves past it and takes `InvalidOperandKind` (40_fetch_decode.md
sections 1, 2 and 4; decisions D2, D10 and D13). -/
def Obligations.StepFaultsWithoutAnOpcodeCell : Prop :=
  ∀ s : State, s.isRunning = true →
    (s.mem.capacity ≤ s.ip → step s = .next { s with fault := some .unexpectedEndOfProgram }) ∧
    (∀ c, s.mem.get s.ip = some c → (∀ o, c ≠ .op o) →
      step s = .next { s with ip := s.ip + 1, fault := some .invalidOperandKind })

/-- A halted or faulted engine changes no state under `step()`, under `run()` or under any number of steps, and both
calls return its outcome (40_fetch_decode.md section 3, 60_exceptions.md section 5; decision D16). -/
def Obligations.StoppedEngineStaysAsItIs : Prop :=
  ∀ s : State, s.isRunning = false →
    stepCall s = (.ended s.outcome, s) ∧ runCall s = (s.outcome, s) ∧
      ∀ k, Host.Core.run Sys2Proof.core k s = .next s

/-- R114: `step()` of a running engine returns `ok` when its body ends without a raise, HLT and Exit included, and
`fault F` when a sub-step raises `F`; after `fault F` the engine is Faulted, and `run()` returns the fault with the
same state. -/
def Obligations.StepReturnsOkOrTheFault : Prop :=
  ∀ s t : State, s.isRunning = true → step s = .next t →
    (t.fault = none → stepCall s = (.ok, t)) ∧
    (∀ f, t.fault = some f →
      stepCall s = (.ended (.faulted f), t) ∧ t.status = .faulted f ∧ runCall s = (.faulted f, t)) ∧
    (s.mem.get s.ip = some (.op .hlt) → stepCall s = (.ok, t) ∧ t.status = .halted) ∧
    (s.mem.get s.ip = some (.op .exec) → sint (s.readReg .ra) = 0 → stepCall s = (.ok, t) ∧ t.status = .halted)

/-! ## Control -/

/-- R140 NOP: its word, no effect in every state, its step, and the step after it at the end of memory. -/
def Obligations.NopOnlyMovesPastItself : Prop :=
  encodeCell (.op .nop) = 0x00000000000000000#66 ∧ Opcode.nop.format = .f0 ∧ Opcode.nop.cells = 1 ∧
  (∀ s : State, exec .nop s = .next s) ∧
  (∀ s : State, s.isRunning = true → s.mem.get s.ip = some (.op .nop) →
    step s = .next { s with ip := s.ip + 1 } ∧
    (s.ip + 1 = s.mem.capacity →
      step { s with ip := s.ip + 1 } =
        .next { s with ip := s.ip + 1, fault := some .unexpectedEndOfProgram }))

/-- R141 HLT: its word, `run` cleared and nothing else in every state, its step and the outcome `halted` of a run
that reaches it, and the halt of a memory in which nothing was written. -/
def Obligations.HltClearsRunAndHalts : Prop :=
  encodeCell (.op .hlt) = 0x00000000000000001#66 ∧ Opcode.hlt.format = .f0 ∧ Opcode.hlt.cells = 1 ∧
  (∀ s : State, exec .hlt s = .next { s with run := false }) ∧
  (∀ s : State, s.isRunning = true → s.mem.get s.ip = some (.op .hlt) →
    step s = .next { s with ip := s.ip + 1, run := false } ∧
    s.status = .running ∧ State.status { s with ip := s.ip + 1, run := false } = .halted ∧
    (s.exit = none → runCall s = (.halted, { s with ip := s.ip + 1, run := false }))) ∧
  (∀ n, 1 ≤ n → runCall (construct (Memory.create n)) =
    (.halted, { construct (Memory.create n) with ip := 1, run := false }))

/-! ## Arithmetic -/

/-- ADD completes for every register and every two operands with values: the result is the exact sum of the signed
readings modulo `2^64`, which is also the sum of the unsigned readings; `ip` moves past three operand cells; nothing
else changes (42_arithmetic.md sections 1 and 2; decision D7). -/
def Obligations.AddWritesTheWrappedSum : Prop :=
  ∀ (s : State) (r : Reg) (c d : Cell) (a b : Word), resolve c s = some a → resolve d s = some b →
    ∃ t, exec (.add (some (.reg r)) (some c) (some d)) s = .next t ∧
      (2 ^ 64 : Int) ∣ sint (t.readReg r) - (sint a + sint b) ∧
      t.readReg r = BitVec.ofNat 64 (a.toNat + b.toNat) ∧
      t.ip = s.ip + 3 ∧ s.OnlyWrites r t

/-- SUB completes for every register and every two operands with values: `src0 - src1` modulo `2^64`
(42_arithmetic.md sections 1 and 2; decision D7). -/
def Obligations.SubWritesTheWrappedDifference : Prop :=
  ∀ (s : State) (r : Reg) (c d : Cell) (a b : Word), resolve c s = some a → resolve d s = some b →
    ∃ t, exec (.sub (some (.reg r)) (some c) (some d)) s = .next t ∧
      (2 ^ 64 : Int) ∣ sint (t.readReg r) - (sint a - sint b) ∧
      t.readReg r = BitVec.ofNat 64 (a.toNat + (2 ^ 64 - b.toNat)) ∧
      t.ip = s.ip + 3 ∧ s.OnlyWrites r t

/-- MUL completes for every register and every two operands with values: the low 64 bits of the exact product, signed
or unsigned (42_arithmetic.md sections 1 and 2; decision D7). -/
def Obligations.MulWritesTheLowHalf : Prop :=
  ∀ (s : State) (r : Reg) (c d : Cell) (a b : Word), resolve c s = some a → resolve d s = some b →
    ∃ t, exec (.mul (some (.reg r)) (some c) (some d)) s = .next t ∧
      (2 ^ 64 : Int) ∣ sint (t.readReg r) - sint a * sint b ∧
      t.readReg r = BitVec.ofNat 64 (a.toNat * b.toNat) ∧
      t.ip = s.ip + 3 ∧ s.OnlyWrites r t

/-- DIV completes for every register, every dividend and every divisor that is not 0. Except at `INT64_MIN / -1`,
which gives `INT64_MIN`, the quotient's size is the size of the dividend divided by that of the divisor, rounded down,
and it is negative exactly when the signs differ and the dividend is at least as large (42_arithmetic.md sections 1
and 2; decision D8). -/
def Obligations.DivTruncatesTowardZero : Prop :=
  ∀ (s : State) (r : Reg) (c d : Cell) (a b : Word), resolve c s = some a → resolve d s = some b → sint b ≠ 0 →
    ∃ t, exec (.div (some (.reg r)) (some c) (some d)) s = .next t ∧
      (sint a = int64Min ∧ sint b = -1 → t.readReg r = a) ∧
      (¬(sint a = int64Min ∧ sint b = -1) →
        (sint (t.readReg r)).natAbs = (sint a).natAbs / (sint b).natAbs ∧
        (sint (t.readReg r) < 0 ↔
          (sint a < 0 ↔ 0 < sint b) ∧ (sint b).natAbs ≤ (sint a).natAbs)) ∧
      t.ip = s.ip + 3 ∧ s.OnlyWrites r t

/-- DIV with a zero divisor takes `DivisionByZero` past its last operand cell and writes nothing else, whatever the
dividend (42_arithmetic.md section 1, 40_fetch_decode.md section 4). -/
def Obligations.DivByZeroFaultsAndWritesNothing : Prop :=
  ∀ (s : State) (r : Reg) (c d : Cell) (a b : Word), resolve c s = some a → resolve d s = some b → sint b = 0 →
    ∃ t, exec (.div (some (.reg r)) (some c) (some d)) s = .next t ∧
      s.FaultedAt .divisionByZero (s.ip + 3) t

/-- The first operand of ADD, SUB, MUL and DIV that is absent or of the wrong kind decides the fault, and `ip` stands
past the cells fetched (40_fetch_decode.md section 4, 30_encoding.md sections 2 and 4; decision D9). -/
def Obligations.ArithmeticOperandFaultsComeInOrder : Prop :=
  ∀ mk : Fetched → Fetched → Fetched → Instr, (mk = .add ∨ mk = .sub ∨ mk = .mul ∨ mk = .div) →
    ∀ (s : State) (x y : Fetched),
      (∃ t, exec (mk none x y) s = .next t ∧ s.FaultedAt .unexpectedEndOfProgram s.ip t) ∧
      (∀ c, (∀ r, c ≠ .reg r) →
        ∃ t, exec (mk (some c) x y) s = .next t ∧ s.FaultedAt .invalidOperandKind (s.ip + 1) t) ∧
      (∀ r, ∃ t, exec (mk (some (.reg r)) none y) s = .next t ∧
        s.FaultedAt .unexpectedEndOfProgram (s.ip + 1) t) ∧
      (∀ r o, ∃ t, exec (mk (some (.reg r)) (some (.op o)) y) s = .next t ∧
        s.FaultedAt .invalidOperandKind (s.ip + 2) t) ∧
      (∀ r c, (∀ o, c ≠ .op o) → ∃ t, exec (mk (some (.reg r)) (some c) none) s = .next t ∧
        s.FaultedAt .unexpectedEndOfProgram (s.ip + 2) t) ∧
      (∀ r c o, (∀ o', c ≠ .op o') → ∃ t, exec (mk (some (.reg r)) (some c) (some (.op o))) s = .next t ∧
        s.FaultedAt .invalidOperandKind (s.ip + 3) t)

/-- The destination may be a source: the result uses the old value (40_fetch_decode.md section 4, an inference the
spec marks as derived; the wrapping is decision D7). -/
def Obligations.DestinationMayBeASource : Prop :=
  ∀ (s : State) (r : Reg),
    (∃ t, exec (.add (some (.reg r)) (some (.reg r)) (some (.reg r))) s = .next t ∧
      (2 ^ 64 : Int) ∣ sint (t.readReg r) - 2 * sint (s.readReg r)) ∧
    (∃ t, exec (.sub (some (.reg r)) (some (.reg r)) (some (.reg r))) s = .next t ∧ t.readReg r = 0) ∧
    (∃ t, exec (.mul (some (.reg r)) (some (.reg r)) (some (.reg r))) s = .next t ∧
      (2 ^ 64 : Int) ∣ sint (t.readReg r) - sint (s.readReg r) ^ 2) ∧
    (sint (s.readReg r) ≠ 0 →
      ∃ t, exec (.div (some (.reg r)) (some (.reg r)) (some (.reg r))) s = .next t ∧ t.readReg r = 1) ∧
    (∀ v, 0 ≤ sint (s.readReg r) → s.mem.get (sint (s.readReg r)).toNat = some (.imm v) →
      ∃ t, exec (.lod (some (.reg r)) (some (.reg r))) s = .next t ∧ t.readReg r = v)

/-! ## Data movement -/

/-- STO: its word (decision D18) and length, its result for every register and every source with a value, and
`STO r,r` unchanged (43_data_movement.md, R170); its operand faults in the order of R117 (40_fetch_decode.md section 4;
decision D9), a failed fetch with `ip` unmoved (R110; decision D13), and `ip` after a fault and the untouched state,
which are inferences the spec marks as derived (R120, R118). -/
def Obligations.StoCopiesIntoARegister : Prop :=
  encodeCell (.op .sto) = 0x00000000000000006#66 ∧ Opcode.sto.format = .frv ∧ Opcode.sto.cells = 3 ∧
  ∀ s : State,
    (∀ (r : Reg) (c : Cell) (v : Word), resolve c s = some v →
      ∃ t, exec (.sto (some (.reg r)) (some c)) s = .next t ∧ t.readReg r = v ∧ t.ip = s.ip + 2 ∧
        s.OnlyWrites r t) ∧
    (∀ r, ∃ t, exec (.sto (some (.reg r)) (some (.reg r))) s = .next t ∧ t.regs = s.regs) ∧
    (∀ x, ∃ t, exec (.sto none x) s = .next t ∧ s.FaultedAt .unexpectedEndOfProgram s.ip t) ∧
    (∀ c x, (∀ r, c ≠ .reg r) →
      ∃ t, exec (.sto (some c) x) s = .next t ∧ s.FaultedAt .invalidOperandKind (s.ip + 1) t) ∧
    (∀ r, ∃ t, exec (.sto (some (.reg r)) none) s = .next t ∧
      s.FaultedAt .unexpectedEndOfProgram (s.ip + 1) t) ∧
    (∀ r o, ∃ t, exec (.sto (some (.reg r)) (some (.op o))) s = .next t ∧
      s.FaultedAt .invalidOperandKind (s.ip + 2) t)

/-- LOD completes for every register and every address operand whose signed value is an address of the memory that
holds an immediate: the register takes it, and nothing else changes (43_data_movement.md; decisions D11 and D12). -/
def Obligations.LodLoadsTheImmediateAtTheAddress : Prop :=
  ∀ (s : State) (r : Reg) (c : Cell) (a v : Word), resolve c s = some a → 0 ≤ sint a →
    sint a < (s.mem.capacity : Int) → s.mem.get (sint a).toNat = some (.imm v) →
    ∃ t, exec (.lod (some (.reg r)) (some c)) s = .next t ∧ t.readReg r = v ∧ t.ip = s.ip + 2 ∧ s.OnlyWrites r t

/-- LOD of an address below 0 or at or past `CAPACITY` takes `OutOfBounds`, and of a cell that is no immediate
`InvalidOperandKind`, after both operands; before that, its operands fault in order (43_data_movement.md;
decisions D9, D11 and D12). -/
def Obligations.LodFaults : Prop :=
  ∀ s : State,
    (∀ (r : Reg) (c : Cell) (a : Word), resolve c s = some a →
      (sint a < 0 ∨ (s.mem.capacity : Int) ≤ sint a →
        ∃ t, exec (.lod (some (.reg r)) (some c)) s = .next t ∧ s.FaultedAt .outOfBounds (s.ip + 2) t) ∧
      (∀ e, 0 ≤ sint a → s.mem.get (sint a).toNat = some e → (∀ v, e ≠ .imm v) →
        ∃ t, exec (.lod (some (.reg r)) (some c)) s = .next t ∧
          s.FaultedAt .invalidOperandKind (s.ip + 2) t)) ∧
    (∀ x, ∃ t, exec (.lod none x) s = .next t ∧ s.FaultedAt .unexpectedEndOfProgram s.ip t) ∧
    (∀ c x, (∀ r, c ≠ .reg r) →
      ∃ t, exec (.lod (some c) x) s = .next t ∧ s.FaultedAt .invalidOperandKind (s.ip + 1) t) ∧
    (∀ r, ∃ t, exec (.lod (some (.reg r)) none) s = .next t ∧
      s.FaultedAt .unexpectedEndOfProgram (s.ip + 1) t) ∧
    (∀ r o, ∃ t, exec (.lod (some (.reg r)) (some (.op o))) s = .next t ∧
      s.FaultedAt .invalidOperandKind (s.ip + 2) t)

/-! ## EXEC -/

/-- R190 EXEC: its word; with code 0 in RA it latches the status in RB and clears `run`, with every other code it
takes `UnsupportedSyscall`; it writes no register; a step of it leaves `ip` past its cell; right after reset it is an
Exit with status 0. -/
def Obligations.ExecDispatchesTheCodeInRa : Prop :=
  encodeCell (.op .exec) = 0x00000000000000008#66 ∧ Opcode.exec.format = .f0 ∧ Opcode.exec.cells = 1 ∧
  (∀ s : State,
    (sint (s.readReg .ra) = 0 →
      exec .exec s = .next { s with exit := some (s.readReg .rb), run := false }) ∧
    (sint (s.readReg .ra) ≠ 0 → exec .exec s = .next { s with fault := some .unsupportedSyscall })) ∧
  (∀ s : State, s.isRunning = true → s.mem.get s.ip = some (.op .exec) →
    ∃ t, step s = .next t ∧ t.ip = s.ip + 1 ∧ t.regs = s.regs ∧ t.mem = s.mem) ∧
  (∀ m : Memory, m.get 0 = some (.op .exec) →
    runCall (construct m) = (.exited 0, { construct m with ip := 1, run := false, exit := some 0 }))

/-! ## Whole-machine rules -/

/-- Every step and every meaning has a next state: a fault of the block is a latched fault in that state (log 1, the
model's reading of 60_exceptions.md section 4), and nothing is refused. -/
def Obligations.EveryStepHasANextState : Prop :=
  (∀ s, ∃ t, step s = .next t) ∧ ∀ i s, ∃ t, exec i s = .next t

/-- Every step keeps the invariant: the canonical memory (log 3), `ip` in `0 .. CAPACITY`, an exit status only after
`run` was cleared, a fault only with `run` set (10_state.md sections 3 and 4). -/
def Obligations.StepKeepsTheInvariant : Prop :=
  ∀ s t : State, s.Inv → step s = .next t → t.Inv

/-- The reset meets the invariant over every memory in canonical form, and `State.reset` does (70_reset_and_hazards.md
section 1). The canonical form, a clause of the invariant and the premise, is the model's choice (log 3); the capacity
of `State.reset` is the model's opaque constant (log 2). -/
def Obligations.ResetMeetsTheInvariant : Prop :=
  State.reset.Inv ∧ ∀ m : Memory, m.wf → (construct m).Inv

/-- What reset leaves: every register 0, `ip` 0, `run` set, no fault, no exit status, the memory as the loader left
it; in `State.reset` nothing is written, so every cell there is holds `Op(HLT)` (70_reset_and_hazards.md section 1;
decisions D3, D4, D5; the capacity of `State.reset` is log 2). -/
def Obligations.ResetValues : Prop :=
  (∀ m : Memory, (construct m).mem = m ∧ (∀ r, (construct m).readReg r = 0) ∧ (construct m).ip = 0 ∧
    (construct m).run = true ∧ (construct m).fault = none ∧ (construct m).exit = none ∧
    (construct m).status = .running ∧ (construct m).faultCode = 0 ∧ (construct m).exitValid = false ∧
    (construct m).exitStatus = 0) ∧
  State.reset = construct (Memory.create Config.capacity) ∧
  ∀ a, State.reset.mem.get a = if a < Config.capacity then some (.op .hlt) else none

/-- Every run ends: from `ip` in range, `CAPACITY + 1 - ip` steps are enough, and `CAPACITY + 1` always are
(40_fetch_decode.md section 5, an inference the spec marks as derived). -/
def Obligations.EveryRunEnds : Prop :=
  (∀ s : State, s.ip ≤ s.mem.capacity →
    ∃ t, Host.Core.run Sys2Proof.core (s.mem.capacity + 1 - s.ip) s = .next t ∧ t.isRunning = false) ∧
  ∀ s : State, ∃ t, Host.Core.run Sys2Proof.core (s.mem.capacity + 1) s = .next t ∧ t.isRunning = false

/-- `run()` is the steps until the engine has stopped: whatever number of steps reaches a stopped engine, `run()`
returns that state and its outcome (40_fetch_decode.md section 3; decision D14). -/
def Obligations.RunIsStepsUntilTheEngineStops : Prop :=
  ∀ (k : Nat) (s t : State), Host.Core.run Sys2Proof.core k s = .next t → t.isRunning = false →
    runCall s = (t.outcome, t)

/-- If the steps from `s` reach an `Op(HLT)` as an opcode before any fault, `run()` returns `halted`, with `run`
cleared and the registers as they stood (40_fetch_decode.md section 5, an inference the spec marks as derived; the
invariant rules out a running engine with an exit status). -/
def Obligations.RunThatReachesHltReturnsHalted : Prop :=
  ∀ (k : Nat) (s t : State), s.Inv → Host.Core.run Sys2Proof.core k s = .next t → t.isRunning = true →
    t.mem.get t.ip = some (.op .hlt) →
    runCall s = (.halted, { t with ip := t.ip + 1, run := false })

/-- No number of steps changes memory, its size or its cursor (20_memory.md sections 2 and 5, an inference the spec
marks as derived; decision D27). -/
def Obligations.NoStepWritesMemory : Prop :=
  ∀ (k : Nat) (s t : State), Host.Core.run Sys2Proof.core k s = .next t → t.mem = s.mem

/-- A step that faults leaves every register, every cell, `run` and `exit` as they were, and `ip` past at most four
cells (40_fetch_decode.md section 4, 60_exceptions.md section 4, inferences the spec marks as derived). -/
def Obligations.FaultingStepWritesNothingElse : Prop :=
  ∀ (s t : State) (f : Fault), s.isRunning = true → step s = .next t → t.fault = some f →
    t.regs = s.regs ∧ t.mem = s.mem ∧ t.run = true ∧ t.exit = s.exit ∧ s.ip ≤ t.ip ∧ t.ip ≤ s.ip + 4

/-- A step writes at most one register, the one its `dest` operand names, and only ADD, SUB, MUL, DIV, STO and LOD
write one (10_state.md section 2, 40_fetch_decode.md section 4, inferences the spec marks as derived). -/
def Obligations.StepWritesAtMostItsDestination : Prop :=
  ∀ s t : State, step s = .next t →
    t.regs = s.regs ∨
    ∃ o r, s.isRunning = true ∧ s.mem.get s.ip = some (.op o) ∧
      (o = .add ∨ o = .sub ∨ o = .mul ∨ o = .div ∨ o = .sto ∨ o = .lod) ∧
      s.mem.get (s.ip + 1) = some (.reg r) ∧ (∀ r', r' ≠ r → t.readReg r' = s.readReg r') ∧
      t.fault = none ∧ t.run = s.run ∧ t.exit = s.exit

/-- A running engine's step is without a fault exactly when an opcode cell stands at `ip`, its operands are present
and of the kinds their positions require, and the instruction's own check passes (40_fetch_decode.md section 4;
decisions D10, D11 and D12). -/
def Obligations.StepIsSafeExactlyWhenEveryCheckPasses : Prop :=
  ∀ s : State, s.isRunning = true →
    (s.SafeStep ↔ ∃ o, s.mem.get s.ip = some (.op o) ∧
      (assemble o (s.mem.get (s.ip + 1)) (s.mem.get (s.ip + 2)) (s.mem.get (s.ip + 3))).wellFormed = true ∧
      (o = .div → ∀ c b, s.mem.get (s.ip + 3) = some c → resolve c s = some b → sint b ≠ 0) ∧
      (o = .lod → ∀ c a, s.mem.get (s.ip + 2) = some c → resolve c s = some a →
        0 ≤ sint a ∧ ∃ v, s.mem.get (sint a).toNat = some (.imm v)) ∧
      (o = .exec → sint (s.readReg .ra) = 0))

/-- `ip` after each fault, as the table of 40_fetch_decode.md section 4 gives it (an inference the spec marks as
derived; decisions D9, D10, D12 and D13). -/
def Obligations.IpAfterEachFault : Prop :=
  ∀ s t : State, s.isRunning = true → s.ip ≤ s.mem.capacity → step s = .next t →
    (t.fault = some .unexpectedEndOfProgram → t.ip = s.mem.capacity) ∧
    (t.fault = some .divisionByZero → s.mem.get s.ip = some (.op .div) ∧ t.ip = s.ip + 4) ∧
    (t.fault = some .outOfBounds → s.mem.get s.ip = some (.op .lod) ∧ t.ip = s.ip + 3) ∧
    (t.fault = some .unsupportedSyscall → s.mem.get s.ip = some (.op .exec) ∧ t.ip = s.ip + 1) ∧
    (t.fault = some .invalidOperandKind →
      (t.ip = s.ip + 1 ∧ ∃ c, s.mem.get s.ip = some c ∧ ∀ o, c ≠ .op o) ∨
      (∃ o k p c, s.mem.get s.ip = some (.op o) ∧ o.format.positions[k]? = some p ∧
        s.mem.get (s.ip + k + 1) = some c ∧ p.acceptsCell c = false ∧ t.ip = s.ip + (k + 1) + 1) ∨
      (t.ip = s.ip + 3 ∧ s.mem.get s.ip = some (.op .lod) ∧
        ∃ c a e, s.mem.get (s.ip + 2) = some c ∧ resolve c s = some a ∧ 0 ≤ sint a ∧
          s.mem.get (sint a).toNat = some e ∧ ∀ v, e ≠ .imm v))

/-- After a step without a fault, `ip` is the start address plus the instruction's length, and it never passes
`CAPACITY`: there is no jump (10_state.md section 3; decisions D13 and D28). -/
def Obligations.IpMovesByTheInstructionLength : Prop :=
  ∀ s t : State, s.isRunning = true → step s = .next t → t.fault = none →
    ∃ o, s.mem.get s.ip = some (.op o) ∧ t.ip = s.ip + o.cells ∧ t.ip ≤ s.mem.capacity

/-- R27: the status as a function of `run` and `fault`, and the only transitions: Running to Halted on HLT or on an
Exit, Running to Faulted on every fault, and none out of Halted or Faulted. -/
def Obligations.EngineStatusAndItsTransitions : Prop :=
  (∀ s : State, (∀ f, s.fault = some f → s.status = .faulted f) ∧
    (s.fault = none → s.run = false → s.status = .halted) ∧
    (s.fault = none → s.run = true → s.status = .running)) ∧
  ∀ s t : State, step s = .next t →
    (s.status ≠ .running → t.status = s.status) ∧
    (s.status = .running →
      (t.status = .halted ↔
        s.mem.get s.ip = some (.op .hlt) ∨
        (s.mem.get s.ip = some (.op .exec) ∧ sint (s.readReg .ra) = 0)) ∧
      ∀ f, t.fault = some f → t.status = .faulted f)

/-- R26: `run` is set by construction, cleared by HLT and by EXEC with code 0 and by nothing else, never set again,
and not cleared by a fault. -/
def Obligations.RunFlagIsClearedOnceAndNeverSet : Prop :=
  (∀ m : Memory, (construct m).run = true) ∧
  ∀ s t : State, step s = .next t →
    (s.run = false → t.run = false) ∧
    (s.isRunning = true →
      (t.run = false ↔
        s.mem.get s.ip = some (.op .hlt) ∨
        (s.mem.get s.ip = some (.op .exec) ∧ sint (s.readReg .ra) = 0)) ∧
      (t.fault ≠ none → t.run = true))

/-- Only EXEC with code 0 writes the exit latch, with `x[RB]`, and nothing clears it (10_state.md section 4;
decision D14). -/
def Obligations.OnlyExitWritesTheExitLatch : Prop :=
  ∀ s t : State, step s = .next t →
    (t.exit ≠ s.exit → s.isRunning = true ∧ s.mem.get s.ip = some (.op .exec) ∧ sint (s.readReg .ra) = 0 ∧
      t.exit = some (s.readReg .rb) ∧ t.run = false) ∧
    (s.exit ≠ none → t.exit ≠ none)

/-- The host's view of the latches: the five fault codes, 0 for none, never 6 or 7; and an exit status of 0 while
`exit_valid` is 0 (10_state.md section 4, 60_exceptions.md section 1; decision D17). -/
def Obligations.LatchCodes : Prop :=
  [Fault.outOfBounds, .unexpectedEndOfProgram, .invalidOperandKind, .divisionByZero, .unsupportedSyscall].map
      Fault.code = [1, 2, 3, 4, 5] ∧
  ∀ s : State, (s.faultCode = 0 ↔ s.fault = none) ∧ s.faultCode ≠ 6 ∧ s.faultCode ≠ 7 ∧
    (∀ f, s.fault = some f → s.faultCode = f.code) ∧
    (s.exitValid = false → s.exitStatus = 0) ∧
    (∀ v, s.exit = some v → s.exitValid = true ∧ s.exitStatus = v)

/-- A step reads the cells of its own instruction and, for LOD, the cell at the resolved address, and no other:
memories of one size that agree there give the same step (40_fetch_decode.md section 1, 20_memory.md section 2). -/
def Obligations.StepReadsOnlyItsOwnCells : Prop :=
  ∀ (s t : State) (m : Memory) (o : Opcode), s.isRunning = true → s.mem.get s.ip = some (.op o) →
    m.capacity = s.mem.capacity → (∀ k, k < o.cells → m.get (s.ip + k) = s.mem.get (s.ip + k)) →
    (o = .lod → ∀ c a, s.mem.get (s.ip + 2) = some c → resolve c s = some a →
      m.get (sint a).toNat = s.mem.get (sint a).toNat) →
    step s = .next t → step { s with mem := m } = .next { t with mem := m }

/-! ## The Memory Store -/

/-- R55: a failed `set` or `appendSequential` changes nothing, an out-of-range `get` reads no cell, and no operation
touches the size of the memory. -/
def Obligations.FailedLoaderOperationTouchesNothing : Prop :=
  ∀ (m : Memory) (a : Nat) (c : Cell),
    ((m.set a c).1 = .outOfBounds → (m.set a c).2 = m) ∧
    ((m.appendSequential c).1 = .outOfBounds → (m.appendSequential c).2 = m) ∧
    (m.capacity ≤ a → (m.set a c).1 = .outOfBounds ∧ m.get a = none) ∧
    (m.capacity ≤ m.cursor → (m.appendSequential c).1 = .outOfBounds) ∧
    (m.set a c).2.capacity = m.capacity ∧ (m.appendSequential c).2.capacity = m.capacity

/-- `set` inside the memory writes that cell and no other and does not move the cursor (20_memory.md section 1;
decision D5). The premise is the canonical form (log 3). -/
def Obligations.SetWritesOneCell : Prop :=
  ∀ (m : Memory) (a : Nat) (c : Cell), m.wf → a < m.capacity →
    ∃ m', m.set a c = (.ok, m') ∧ m'.get a = some c ∧ (∀ b, b ≠ a → m'.get b = m.get b) ∧
      m'.cursor = m.cursor ∧ m'.capacity = m.capacity

/-- `appendSequential` with room writes the cell at the cursor and no other, and moves the cursor by one
(20_memory.md section 1; decision D5). The premise is the canonical form (log 3). -/
def Obligations.AppendWritesAtTheCursor : Prop :=
  ∀ (m : Memory) (c : Cell), m.wf → m.cursor < m.capacity →
    ∃ m', m.appendSequential c = (.ok, m') ∧ m'.get m.cursor = some c ∧
      (∀ b, b ≠ m.cursor → m'.get b = m.get b) ∧ m'.cursor = m.cursor + 1 ∧ m'.capacity = m.capacity

/-- `create` fills every cell with `Op(HLT)` and starts the cursor at 0; past the end `get` is absent (20_memory.md
section 1; decisions D1, D2 and D5). -/
def Obligations.CreateFillsWithHlt : Prop :=
  ∀ n : Nat, (Memory.create n).capacity = n ∧ (Memory.create n).cursor = 0 ∧
    (∀ a, a < n → (Memory.create n).get a = some (.op .hlt)) ∧ ∀ a, n ≤ a → (Memory.create n).get a = none

/-- Memories in canonical form that read the same everywhere are the same data: the model's choice of the form
(log 3). -/
def Obligations.EqualReadsMeanEqualMemory : Prop :=
  ∀ m n : Memory, m.wf → n.wf → m.capacity = n.capacity → m.cursor = n.cursor →
    (∀ a, m.get a = n.get a) → m = n

/-- Every program a loader appends to a fresh memory that is large enough stands there cell by cell, every other cell
holds `Op(HLT)` (70_reset_and_hazards.md section 2, 20_memory.md section 1; decisions D4 and D5). The clause `m.wf`,
that the memory is in canonical form, is the model's choice (log 3). -/
def Obligations.AppendedProgramStandsInMemory : Prop :=
  ∀ (n : Nat) (cs : List Cell), cs.length ≤ n →
    ∃ m, (Memory.create n).appendAll cs = (.ok, m) ∧ m.wf ∧ m.capacity = n ∧ m.cursor = cs.length ∧
      (∀ a c, cs[a]? = some c → m.get a = some c) ∧
      ∀ a, cs.length ≤ a → a < n → m.get a = some (.op .hlt)

/-- The very next step of `withFetchWord` runs the instruction that `decodeTableWord` reads: a property of the
model's own two definitions for the host (log 5). The premise is the canonical form (log 3). -/
def Obligations.PlacedWordRunsNext : Prop :=
  ∀ (s : State) (nbits w : Nat) (i : Instr), s.mem.wf → decodeTableWord nbits w = some i →
    step (s.withFetchWord nbits w) =
      exec i { s.withFetchWord nbits w with ip := s.ip + 1 }
end

