-- ==== Sys2Proof/Laws/Alu.lean ====
section
/-! SUPPORT. What the ALU operations answer, beside their definitions over exact integers. -/

namespace Sys2Proof.Machine

/-- R7: `wrap64(n)` is congruent to `n` modulo `2^64`. -/
theorem dvd_sint_wrap64 (n : Int) : (2 ^ 64 : Int) ∣ sint (wrap64 n) - n := by
  have h := Int.dvd_bmod_sub_self (x := n) (m := 2 ^ 64)
  simpa [sint, wrap64, BitVec.toInt_ofInt] using h

/-- R7: an integer that an `Int64` denotes is kept by `wrap64`. -/
theorem sint_wrap64_of_range {n : Int} (h1 : -(2 ^ 63) ≤ n) (h2 : n < 2 ^ 63) : sint (wrap64 n) = n := by
  simp only [sint, wrap64, BitVec.toInt_ofInt]
  rw [Int.bmod_eq_of_le] <;> omega

/-- R7: the range of a signed reading. -/
theorem sint_range (a : Word) : -(2 ^ 63) ≤ sint a ∧ sint a < 2 ^ 63 := by
  have h1 := BitVec.le_toInt a
  have h2 := BitVec.toInt_lt (x := a)
  simp only [sint]
  omega

/-- R154: the sum is the sum of bit vectors, so the same read signed or unsigned. -/
theorem add64_eq (a b : Word) : add64 a b = a + b := by
  simp [add64, wrap64, sint, BitVec.ofInt_add]

/-- R154: the difference is the difference of bit vectors. -/
theorem sub64_eq (a b : Word) : sub64 a b = a - b := by
  apply BitVec.eq_of_toInt_eq
  simp [sub64, wrap64, sint, BitVec.toInt_sub, BitVec.toInt_ofInt]

/-- R154: the product is the product of bit vectors. -/
theorem mul64_eq (a b : Word) : mul64 a b = a * b := by
  simp [mul64, wrap64, sint, BitVec.ofInt_mul]

/-- R153: `INT64_MIN / -1` is the dividend. -/
theorem div64_overflow {a b : Word} (h : sint a = int64Min ∧ sint b = -1) : div64 a b = a := if_pos h

/-- A truncated quotient is no larger than its dividend. -/
theorem natAbs_tdiv_le (x y : Int) : (x.tdiv y).natAbs ≤ x.natAbs := by
  rw [Int.natAbs_tdiv]; exact Nat.div_le_self _ _

/-- R153: everywhere else the signed reading of the result is the truncated quotient, exactly. -/
theorem sint_div64 {a b : Word} (h : ¬(sint a = int64Min ∧ sint b = -1)) :
    sint (div64 a b) = (sint a).tdiv (sint b) := by
  rw [div64, if_neg h]
  have ha := sint_range a
  have hle := natAbs_tdiv_le (sint a) (sint b)
  by_cases hmin : sint a = int64Min
  · have hb : sint b ≠ -1 := fun hb => h ⟨hmin, hb⟩
    refine sint_wrap64_of_range ?_ ?_
    · simp only [int64Min] at hmin; omega
    · have hsize : (sint a).natAbs = 2 ^ 63 := by rw [hmin]; rfl
      have hquot : ((sint a).tdiv (sint b)).natAbs = 2 ^ 63 / (sint b).natAbs := by
        rw [Int.natAbs_tdiv, hsize]; rfl
      rcases Nat.lt_or_ge 1 (sint b).natAbs with h1 | h1
      · have hhalf : 2 ^ 63 / (sint b).natAbs ≤ 2 ^ 63 / 2 := Nat.div_le_div_left h1 (by decide)
        omega
      · rcases Nat.eq_zero_or_pos (sint b).natAbs with h0 | h0
        · rw [h0, Nat.div_zero] at hquot
          omega
        · have hone : sint b = 1 := by omega
          rw [hone, Int.tdiv_one, hmin]
          decide
  · simp only [int64Min] at hmin
    refine sint_wrap64_of_range ?_ ?_ <;> omega

end Sys2Proof.Machine
end

