-- ==== Sys2Proof/Laws/Decode.lean ====
section
/-! SUPPORT. The parts of a cell word, as numbers and as a concatenation. -/

namespace Sys2Proof

/-- R85: the tag as a number. -/
theorem cellTag_toNat (w : CellWord) : (cellTag w).toNat = w.toNat / 2 ^ 64 := by
  have h := w.isLt
  simp only [cellTag, BitVec.extractLsb'_toNat, Nat.shiftRight_eq_div_pow]
  omega

/-- R85: the payload as a number. -/
theorem cellPayload_toNat (w : CellWord) : (cellPayload w).toNat = w.toNat % 2 ^ 64 := by
  simp [cellPayload, BitVec.extractLsb'_toNat]

/-- R85: the number of a tag put before a payload. -/
theorem append_toNat (t : BitVec 2) (p : Word) : (t ++ p : CellWord).toNat = t.toNat * 2 ^ 64 + p.toNat := by
  rw [BitVec.toNat_append, Nat.shiftLeft_eq, Nat.mul_comm, ← Nat.two_pow_add_eq_or_of_lt p.isLt]

@[simp] theorem cellTag_append (t : BitVec 2) (p : Word) : cellTag (t ++ p : CellWord) = t := by
  apply BitVec.eq_of_toNat_eq
  have := p.isLt
  rw [cellTag_toNat, append_toNat]
  omega

@[simp] theorem cellPayload_append (t : BitVec 2) (p : Word) : cellPayload (t ++ p : CellWord) = p := by
  apply BitVec.eq_of_toNat_eq
  have := p.isLt
  rw [cellPayload_toNat, append_toNat]
  omega

/-- R85: a word is its tag before its payload. -/
theorem tag_append_payload (w : CellWord) : (cellTag w ++ cellPayload w : CellWord) = w := by
  apply BitVec.eq_of_toNat_eq
  rw [append_toNat, cellTag_toNat, cellPayload_toNat]
  omega

/-- R87: an opcode's number names it. -/
@[simp] theorem opcode_ofNumber_number (o : Opcode) : Opcode.ofNumber o.number = some o := by cases o <;> rfl

/-- R87: only its own number names an opcode, and the numbers end at 8. -/
theorem opcode_ofNumber_eq_some {n : Nat} {o : Opcode} (h : Opcode.ofNumber n = some o) : n = o.number := by
  rcases n with _ | _ | _ | _ | _ | _ | _ | _ | _ | n <;> simp [Opcode.ofNumber] at h <;> subst h <;> rfl

theorem opcode_ofNumber_eq_none {n : Nat} : Opcode.ofNumber n = none ↔ 8 < n := by
  rcases n with _ | _ | _ | _ | _ | _ | _ | _ | _ | n <;> simp [Opcode.ofNumber]

/-- R86: a register's number names it. -/
@[simp] theorem reg_ofNumber_number (r : Reg) : Reg.ofNumber r.number = some r := by cases r <;> rfl

/-- R86: only its own number names a register, and the numbers end at 7. -/
theorem reg_ofNumber_eq_some {n : Nat} {r : Reg} (h : Reg.ofNumber n = some r) : n = r.number := by
  rcases n with _ | _ | _ | _ | _ | _ | _ | _ | n <;> simp [Reg.ofNumber] at h <;> subst h <;> rfl

theorem reg_ofNumber_eq_none {n : Nat} : Reg.ofNumber n = none ↔ 7 < n := by
  rcases n with _ | _ | _ | _ | _ | _ | _ | _ | n <;> simp [Reg.ofNumber]

/-- The numbers fit their payload. -/
theorem opcode_number_lt (o : Opcode) : o.number < 9 := by cases o <;> decide

theorem reg_number_lt (r : Reg) : r.number < 8 := by cases r <;> decide

/-- Words that all spell cells decode to the list of those cells. -/
theorem decodeWords_cons (w : CellWord) (ws : List CellWord) :
    decodeWords (w :: ws) =
      match decodeCell w with
      | .error e => .error e
      | .ok c =>
        match decodeWords ws with
        | .error e => .error e
        | .ok cs => .ok (c :: cs) := rfl

/-- R84: an assembled instruction begins with its opcode. -/
@[simp] theorem assemble_opcode (o : Opcode) (c1 c2 c3 : Fetched) : (assemble o c1 c2 c3).opcode = o := by
  cases o <;> rfl

end Sys2Proof
end

