-- ==== Sys2Proof/Laws/State.lean ====
section
/-! SUPPORT. One lemma per field per update of the state, true by `rfl`, so that no later proof unfolds a record
update; and what the status functions answer after each update. -/

namespace Sys2Proof.Machine

@[simp] theorem advance_mem (s : State) : s.advance.mem = s.mem := rfl
@[simp] theorem advance_regs (s : State) : s.advance.regs = s.regs := rfl
@[simp] theorem advance_ip (s : State) : s.advance.ip = s.ip + 1 := rfl
@[simp] theorem advance_run (s : State) : s.advance.run = s.run := rfl
@[simp] theorem advance_fault (s : State) : s.advance.fault = s.fault := rfl
@[simp] theorem advance_exit (s : State) : s.advance.exit = s.exit := rfl

@[simp] theorem writeReg_mem (s : State) (r : Reg) (v : Word) : (s.writeReg r v).mem = s.mem := rfl
@[simp] theorem writeReg_regs (s : State) (r : Reg) (v : Word) : (s.writeReg r v).regs = s.regs.write r v := rfl
@[simp] theorem writeReg_ip (s : State) (r : Reg) (v : Word) : (s.writeReg r v).ip = s.ip := rfl
@[simp] theorem writeReg_run (s : State) (r : Reg) (v : Word) : (s.writeReg r v).run = s.run := rfl
@[simp] theorem writeReg_fault (s : State) (r : Reg) (v : Word) : (s.writeReg r v).fault = s.fault := rfl
@[simp] theorem writeReg_exit (s : State) (r : Reg) (v : Word) : (s.writeReg r v).exit = s.exit := rfl

@[simp] theorem raise_mem (s : State) (f : Fault) : (s.raise f).mem = s.mem := rfl
@[simp] theorem raise_regs (s : State) (f : Fault) : (s.raise f).regs = s.regs := rfl
@[simp] theorem raise_ip (s : State) (f : Fault) : (s.raise f).ip = s.ip := rfl
@[simp] theorem raise_run (s : State) (f : Fault) : (s.raise f).run = s.run := rfl
@[simp] theorem raise_fault (s : State) (f : Fault) : (s.raise f).fault = some f := rfl
@[simp] theorem raise_exit (s : State) (f : Fault) : (s.raise f).exit = s.exit := rfl

@[simp] theorem clearRun_mem (s : State) : s.clearRun.mem = s.mem := rfl
@[simp] theorem clearRun_regs (s : State) : s.clearRun.regs = s.regs := rfl
@[simp] theorem clearRun_ip (s : State) : s.clearRun.ip = s.ip := rfl
@[simp] theorem clearRun_run (s : State) : s.clearRun.run = false := rfl
@[simp] theorem clearRun_fault (s : State) : s.clearRun.fault = s.fault := rfl
@[simp] theorem clearRun_exit (s : State) : s.clearRun.exit = s.exit := rfl

@[simp] theorem latchExit_mem (s : State) (v : Word) : (s.latchExit v).mem = s.mem := rfl
@[simp] theorem latchExit_regs (s : State) (v : Word) : (s.latchExit v).regs = s.regs := rfl
@[simp] theorem latchExit_ip (s : State) (v : Word) : (s.latchExit v).ip = s.ip := rfl
@[simp] theorem latchExit_run (s : State) (v : Word) : (s.latchExit v).run = s.run := rfl
@[simp] theorem latchExit_fault (s : State) (v : Word) : (s.latchExit v).fault = s.fault := rfl
@[simp] theorem latchExit_exit (s : State) (v : Word) : (s.latchExit v).exit = some v := rfl

@[simp] theorem construct_mem (m : Memory) : (construct m).mem = m := rfl
@[simp] theorem construct_regs (m : Memory) : (construct m).regs = RegFile.zero := rfl
@[simp] theorem construct_ip (m : Memory) : (construct m).ip = 0 := rfl
@[simp] theorem construct_run (m : Memory) : (construct m).run = true := rfl
@[simp] theorem construct_fault (m : Memory) : (construct m).fault = none := rfl
@[simp] theorem construct_exit (m : Memory) : (construct m).exit = none := rfl

/-- `State.reset` is the reset over a memory in which the loader has written nothing. -/
theorem reset_eq_construct : State.reset = construct (Memory.create Config.capacity) := rfl

/-- A register is read through the register file alone. -/
theorem readReg_of_regs {s t : State} (h : t.regs = s.regs) (r : Reg) : t.readReg r = s.readReg r := by
  simp [State.readReg, h]

@[simp] theorem readReg_advance (s : State) (r : Reg) : s.advance.readReg r = s.readReg r := rfl
@[simp] theorem readReg_raise (s : State) (f : Fault) (r : Reg) : (s.raise f).readReg r = s.readReg r := rfl
@[simp] theorem readReg_clearRun (s : State) (r : Reg) : s.clearRun.readReg r = s.readReg r := rfl
@[simp] theorem readReg_latchExit (s : State) (v : Word) (r : Reg) : (s.latchExit v).readReg r = s.readReg r := rfl

/-- The engine runs exactly when `run` is set and no fault is latched. -/
theorem isRunning_iff (s : State) : s.isRunning = true ↔ s.run = true ∧ s.fault = none := by
  simp [State.isRunning, Option.isNone_iff_eq_none]

/-- R27: Running is the status of a running engine. -/
theorem status_running_iff (s : State) : s.status = .running ↔ s.isRunning = true := by
  rw [isRunning_iff]
  unfold State.status
  cases s.fault <;> cases s.run <;> simp

/-- R27: Halted is the status without a fault and with `run` clear. -/
theorem status_halted_iff (s : State) : s.status = .halted ↔ s.run = false ∧ s.fault = none := by
  unfold State.status
  cases s.fault <;> cases s.run <;> simp

/-- R27: Faulted is the status whenever a fault is latched, whatever `run` holds. -/
theorem status_faulted_iff (s : State) (f : Fault) : s.status = .faulted f ↔ s.fault = some f := by
  unfold State.status
  cases s.fault <;> cases s.run <;> simp

/-- The latch's code tells the fault (R211). -/
theorem fault_code_injective {f g : Fault} (h : f.code = g.code) : f = g := by
  revert h; cases f <;> cases g <;> decide

end Sys2Proof.Machine
end

