-- ==== Sys2Proof/Laws/Registers.lean ====
section
/-! SUPPORT. The register file: a read after a write. -/

namespace Sys2Proof.Machine

@[simp] theorem read_write_same (f : RegFile) (r : Reg) (v : Word) : (f.write r v).read r = v := by
  cases r <;> rfl

theorem read_write_other (f : RegFile) {r r' : Reg} (v : Word) (h : r' ≠ r) :
    (f.write r v).read r' = f.read r' := by
  cases r <;> cases r' <;> first | rfl | exact absurd rfl h

@[simp] theorem readReg_writeReg_same (s : State) (r : Reg) (v : Word) : (s.writeReg r v).readReg r = v :=
  read_write_same _ _ _

theorem readReg_writeReg_other (s : State) {r r' : Reg} (v : Word) (h : r' ≠ r) :
    (s.writeReg r v).readReg r' = s.readReg r' :=
  read_write_other _ _ h

@[simp] theorem read_zero (r : Reg) : RegFile.zero.read r = 0 := by cases r <;> rfl

/-- Register files with equal reads are equal: no state is hidden behind the eight reads. -/
theorem regFile_ext {f g : RegFile} (h : ∀ r, f.read r = g.read r) : f = g := by
  cases f; cases g
  simp only [RegFile.mk.injEq]
  exact ⟨h .ra, h .rb, h .rc, h .rd, h .re, h .rf, h .rj, h .rk⟩

/-- Writing back what a register holds changes nothing. -/
theorem write_read_self (f : RegFile) (r : Reg) : f.write r (f.read r) = f := by
  cases r <;> rfl

end Sys2Proof.Machine
end

