-- ==== Sys2Proof/Laws/Operands.lean ====
section
/-! SUPPORT. What the fetch sub-steps can do: for each, one lemma per answer and one that says every case at once. -/

namespace Sys2Proof.Machine

@[simp] theorem bind_done {α β : Type} (a : α) (s : State) (f : α → State → SubStep β) :
    (SubStep.done a s).bind f = f a s := rfl

@[simp] theorem bind_raised {α β : Type} (s : State) (f : α → State → SubStep β) :
    (SubStep.raised (α := α) s).bind f = .raised s := rfl

@[simp] theorem outcome_done (s : State) : (SubStep.done () s).outcome = .next s := rfl

@[simp] theorem outcome_raised (s : State) : (SubStep.raised (α := Unit) s).outcome = .next s := rfl

/-- R11: a sequence is done exactly when both of its parts are. -/
theorem bind_eq_done {α β : Type} {m : SubStep α} {f : α → State → SubStep β} {b : β} {t : State} :
    m.bind f = .done b t ↔ ∃ a s, m = .done a s ∧ f a s = .done b t := by
  cases m <;> simp [SubStep.bind, and_assoc]

/-- R10: a sequence raises where its first part does, or else where its second does. -/
theorem bind_eq_raised {α β : Type} {m : SubStep α} {f : α → State → SubStep β} {t : State} :
    m.bind f = .raised t ↔ m = .raised t ∨ ∃ a s, m = .done a s ∧ f a s = .raised t := by
  cases m <;> simp [SubStep.bind, and_assoc]

@[simp] theorem accept_none (s : State) : accept none s = .raised (s.raise .unexpectedEndOfProgram) := rfl

@[simp] theorem accept_some (c : Cell) (s : State) : accept (some c) s = .done c s.advance := rfl

@[simp] theorem fetchDest_none (s : State) : fetchDest none s = .raised (s.raise .unexpectedEndOfProgram) := rfl

@[simp] theorem fetchDest_reg (r : Reg) (s : State) : fetchDest (some (.reg r)) s = .done r s.advance := rfl

@[simp] theorem fetchDest_imm (v : Word) (s : State) :
    fetchDest (some (.imm v)) s = .raised (s.advance.raise .invalidOperandKind) := rfl

@[simp] theorem fetchDest_op (o : Opcode) (s : State) :
    fetchDest (some (.op o)) s = .raised (s.advance.raise .invalidOperandKind) := rfl

@[simp] theorem fetchValue_none (s : State) : fetchValue none s = .raised (s.raise .unexpectedEndOfProgram) := rfl

@[simp] theorem fetchValue_reg (r : Reg) (s : State) :
    fetchValue (some (.reg r)) s = .done (s.readReg r) s.advance := rfl

@[simp] theorem fetchValue_imm (v : Word) (s : State) : fetchValue (some (.imm v)) s = .done v s.advance := rfl

@[simp] theorem fetchValue_op (o : Opcode) (s : State) :
    fetchValue (some (.op o)) s = .raised (s.advance.raise .invalidOperandKind) := rfl

@[simp] theorem resolve_advance (c : Cell) (s : State) : resolve c s.advance = resolve c s := by cases c <;> rfl

/-- A cell that has a value is fetched as that value. -/
theorem fetchValue_of_resolve {c : Cell} {s : State} {v : Word} (h : resolve c s = some v) :
    fetchValue (some c) s = .done v s.advance := by
  cases c <;> simp_all [resolve]

/-- Everything `fetchDest` can do. -/
theorem fetchDest_cases (answer : Fetched) (s : State) :
    (∃ r, answer = some (.reg r) ∧ fetchDest answer s = .done r s.advance) ∨
    (answer = none ∧ fetchDest answer s = .raised (s.raise .unexpectedEndOfProgram)) ∨
    (∃ c, answer = some c ∧ PosKind.r.acceptsCell c = false ∧
      fetchDest answer s = .raised (s.advance.raise .invalidOperandKind)) := by
  rcases answer with _ | (o | v | r)
  · exact .inr (.inl ⟨rfl, rfl⟩)
  · exact .inr (.inr ⟨_, rfl, rfl, rfl⟩)
  · exact .inr (.inr ⟨_, rfl, rfl, rfl⟩)
  · exact .inl ⟨r, rfl, rfl⟩

/-- Everything `fetchValue` can do. -/
theorem fetchValue_cases (answer : Fetched) (s : State) :
    (∃ c v, answer = some c ∧ resolve c s = some v ∧ fetchValue answer s = .done v s.advance) ∨
    (answer = none ∧ fetchValue answer s = .raised (s.raise .unexpectedEndOfProgram)) ∨
    (∃ c, answer = some c ∧ PosKind.v.acceptsCell c = false ∧
      fetchValue answer s = .raised (s.advance.raise .invalidOperandKind)) := by
  rcases answer with _ | (o | v | r)
  · exact .inr (.inl ⟨rfl, rfl⟩)
  · exact .inr (.inr ⟨_, rfl, rfl, rfl⟩)
  · exact .inl ⟨_, _, rfl, rfl, rfl⟩
  · exact .inl ⟨_, _, rfl, rfl, rfl⟩

/-- The FRV fetch with a register and a cell that has a value. -/
theorem fetchRV_of_resolve {r : Reg} {c : Cell} {s : State} {v : Word} (h : resolve c s = some v) :
    fetchRV (some (.reg r)) (some c) s = .done (r, v) s.advance.advance := by
  simp [fetchRV, fetchValue_of_resolve (s := s.advance) (c := c) (v := v) (by simpa using h)]

/-- The FRVV fetch with a register and two cells that have values. -/
theorem fetchRVV_of_resolve {r : Reg} {c d : Cell} {s : State} {a b : Word} (hc : resolve c s = some a)
    (hd : resolve d s = some b) :
    fetchRVV (some (.reg r)) (some c) (some d) s = .done (r, a, b) s.advance.advance.advance := by
  simp [fetchRVV, fetchValue_of_resolve (s := s.advance) (c := c) (v := a) (by simpa using hc),
    fetchValue_of_resolve (s := s.advance.advance) (c := d) (v := b) (by simpa using hd)]

/-- What every sub-step of a fetch leaves: only `ip` moves, and a raise adds the fault. -/
def FetchLeaves (s t : State) : Prop :=
  t.mem = s.mem ∧ t.regs = s.regs ∧ t.run = s.run ∧ t.exit = s.exit

theorem FetchLeaves.refl (s : State) : FetchLeaves s s := ⟨rfl, rfl, rfl, rfl⟩

theorem FetchLeaves.trans {s t u : State} (h : FetchLeaves s t) (h' : FetchLeaves t u) : FetchLeaves s u :=
  ⟨h'.1.trans h.1, h'.2.1.trans h.2.1, h'.2.2.1.trans h.2.2.1, h'.2.2.2.trans h.2.2.2⟩

/-- If `fetchRV` is done, it answers the register named and the value, two cells on. -/
theorem fetchRV_eq_done {x y : Fetched} {s t : State} {r : Reg} {v : Word} (h : fetchRV x y s = .done (r, v) t) :
    ∃ c, x = some (.reg r) ∧ y = some c ∧ resolve c s = some v ∧ t = s.advance.advance := by
  obtain ⟨r', rfl, h1⟩ | ⟨rfl, h1⟩ | ⟨_, rfl, _, h1⟩ := fetchDest_cases x s <;>
    simp only [fetchRV, h1, bind_done, bind_raised, reduceCtorEq] at h
  obtain ⟨c, v', rfl, hv, h2⟩ | ⟨rfl, h2⟩ | ⟨_, rfl, _, h2⟩ := fetchValue_cases y s.advance <;>
    simp only [h2, bind_done, bind_raised, reduceCtorEq] at h
  cases h
  exact ⟨c, rfl, rfl, by simpa using hv, rfl⟩

/-- If `fetchRVV` is done, it answers the register named and the two values, three cells on. -/
theorem fetchRVV_eq_done {x y z : Fetched} {s t : State} {r : Reg} {a b : Word}
    (h : fetchRVV x y z s = .done (r, a, b) t) :
    ∃ c d, x = some (.reg r) ∧ y = some c ∧ z = some d ∧ resolve c s = some a ∧ resolve d s = some b ∧
      t = s.advance.advance.advance := by
  obtain ⟨r', rfl, h1⟩ | ⟨rfl, h1⟩ | ⟨_, rfl, _, h1⟩ := fetchDest_cases x s <;>
    simp only [fetchRVV, h1, bind_done, bind_raised, reduceCtorEq] at h
  obtain ⟨c, v', rfl, hv, h2⟩ | ⟨rfl, h2⟩ | ⟨_, rfl, _, h2⟩ := fetchValue_cases y s.advance <;>
    simp only [h2, bind_done, bind_raised, reduceCtorEq] at h
  obtain ⟨d, w', rfl, hw, h3⟩ | ⟨rfl, h3⟩ | ⟨_, rfl, _, h3⟩ := fetchValue_cases z s.advance.advance <;>
    simp only [h3, bind_done, bind_raised, reduceCtorEq] at h
  cases h
  exact ⟨c, d, rfl, rfl, rfl, by simpa using hv, by simpa using hw, rfl⟩

/-- Where an operand fetch raises (R117): the operands, the kinds their positions require, and how many cells were
fetched before. -/
inductive OperandRaise : List PosKind → List Fetched → State → State → Prop where
  | absent (k : PosKind) (ks : List PosKind) (as : List Fetched) (s : State) :
      OperandRaise (k :: ks) (none :: as) s (s.raise .unexpectedEndOfProgram)
  | kind (k : PosKind) (c : Cell) (ks : List PosKind) (as : List Fetched) (s : State)
      (h : k.acceptsCell c = false) :
      OperandRaise (k :: ks) (some c :: as) s (s.advance.raise .invalidOperandKind)
  | later (k : PosKind) (c : Cell) (ks : List PosKind) (as : List Fetched) (s t : State)
      (h : k.acceptsCell c = true) (ht : OperandRaise ks as s.advance t) :
      OperandRaise (k :: ks) (some c :: as) s t

theorem acceptsCell_of_resolve {c : Cell} {s : State} {v : Word} (h : resolve c s = some v) :
    PosKind.v.acceptsCell c = true := by
  cases c <;> simp_all [resolve, PosKind.acceptsCell]

/-- If `fetchRV` raises, it is at the first operand that is absent or of the wrong kind. -/
theorem fetchRV_eq_raised {x y : Fetched} {s t : State} (h : fetchRV x y s = .raised t) :
    OperandRaise Format.frv.positions [x, y] s t := by
  obtain ⟨r', rfl, h1⟩ | ⟨rfl, h1⟩ | ⟨c, rfl, hk, h1⟩ := fetchDest_cases x s <;>
    simp only [fetchRV, h1, bind_done, bind_raised, SubStep.raised.injEq] at h
  · refine .later _ _ _ _ _ _ rfl ?_
    obtain ⟨c, v', rfl, hv, h2⟩ | ⟨rfl, h2⟩ | ⟨_, rfl, hk, h2⟩ := fetchValue_cases y s.advance <;>
      simp only [h2, bind_done, bind_raised, reduceCtorEq, SubStep.raised.injEq] at h
    · exact h ▸ .absent _ _ _ _
    · exact h ▸ .kind _ _ _ _ _ hk
  · exact h ▸ .absent _ _ _ _
  · exact h ▸ .kind _ _ _ _ _ hk

/-- If `fetchRVV` raises, it is at the first operand that is absent or of the wrong kind. -/
theorem fetchRVV_eq_raised {x y z : Fetched} {s t : State} (h : fetchRVV x y z s = .raised t) :
    OperandRaise Format.frvv.positions [x, y, z] s t := by
  obtain ⟨r', rfl, h1⟩ | ⟨rfl, h1⟩ | ⟨c, rfl, hk, h1⟩ := fetchDest_cases x s <;>
    simp only [fetchRVV, h1, bind_done, bind_raised, SubStep.raised.injEq] at h
  · refine .later _ _ _ _ _ _ rfl ?_
    obtain ⟨c, v', rfl, hv, h2⟩ | ⟨rfl, h2⟩ | ⟨_, rfl, hk, h2⟩ := fetchValue_cases y s.advance <;>
      simp only [h2, bind_done, bind_raised, SubStep.raised.injEq] at h
    · refine .later _ _ _ _ _ _ (acceptsCell_of_resolve hv) ?_
      obtain ⟨d, w', rfl, hw, h3⟩ | ⟨rfl, h3⟩ | ⟨_, rfl, hk, h3⟩ := fetchValue_cases z s.advance.advance <;>
        simp only [h3, bind_done, bind_raised, reduceCtorEq, SubStep.raised.injEq] at h
      · exact h ▸ .absent _ _ _ _
      · exact h ▸ .kind _ _ _ _ _ hk
    · exact h ▸ .absent _ _ _ _
    · exact h ▸ .kind _ _ _ _ _ hk
  · exact h ▸ .absent _ _ _ _
  · exact h ▸ .kind _ _ _ _ _ hk

/-- A raised operand fetch moves `ip` alone and latches one of two faults. -/
theorem OperandRaise.leaves {ks : List PosKind} {as : List Fetched} {s t : State} (h : OperandRaise ks as s t) :
    FetchLeaves s t ∧ (t.fault = some .unexpectedEndOfProgram ∨ t.fault = some .invalidOperandKind) ∧
      s.ip ≤ t.ip ∧ t.ip ≤ s.ip + as.length := by
  induction h with
  | absent => exact ⟨⟨rfl, rfl, rfl, rfl⟩, .inl rfl, by simp, by simp⟩
  | kind => exact ⟨⟨rfl, rfl, rfl, rfl⟩, .inr rfl, by simp, by simp⟩
  | later k c ks as s t h ht ih =>
    obtain ⟨h1, h2, h3, h4⟩ := ih
    simp at h3 h4
    exact ⟨FetchLeaves.trans ⟨rfl, rfl, rfl, rfl⟩ h1, h2, by omega, by simp; omega⟩

/-- Everything `fetchInstr` can do (R110, R111). -/
theorem fetchInstr_cases (s : State) :
    (∃ o, s.mem.get s.ip = some (.op o) ∧
      fetchInstr s = .done
        (assemble o (s.mem.get (s.ip + 1)) (s.mem.get (s.ip + 2)) (s.mem.get (s.ip + 3))) s.advance) ∨
    (s.mem.get s.ip = none ∧ fetchInstr s = .raised (s.raise .unexpectedEndOfProgram)) ∨
    (∃ c, s.mem.get s.ip = some c ∧ (∀ o, c ≠ .op o) ∧
      fetchInstr s = .raised (s.advance.raise .invalidOperandKind)) := by
  rcases h : s.mem.get s.ip with _ | (o | v | r) <;> simp [fetchInstr, fetchNext, h]

end Sys2Proof.Machine
end

