-- ==== Sys2Proof/Laws/Exec.lean ====
section
/-! SUPPORT. What each meaning can do: its result where its operands have values, and one inversion lemma that says
every case at once, which proofs cite instead of unfolding a meaning. -/

namespace Sys2Proof.Machine

/-- An FRVV instruction without a check of its own, where its operands have values. -/
theorem binaryOp_of_resolve (f : Word → Word → Word) {r : Reg} {c d : Cell} {s : State} {a b : Word}
    (hc : resolve c s = some a) (hd : resolve d s = some b) :
    binaryOp f (some (.reg r)) (some c) (some d) s = .done () (s.advance.advance.advance.writeReg r (f a b)) := by
  simp [binaryOp, fetchRVV_of_resolve hc hd]

/-- Everything `binaryOp` can do: a fault at an operand, or the one register write. -/
theorem binaryOp_cases (f : Word → Word → Word) (x y z : Fetched) (s : State) :
    (∃ t, (binaryOp f x y z s).outcome = .next t ∧ OperandRaise Format.frvv.positions [x, y, z] s t) ∨
    (∃ r c d a b, x = some (.reg r) ∧ y = some c ∧ z = some d ∧ resolve c s = some a ∧ resolve d s = some b ∧
      (binaryOp f x y z s).outcome = .next (s.advance.advance.advance.writeReg r (f a b))) := by
  rcases h : fetchRVV x y z s with ⟨⟨r, a, b⟩, t⟩ | t
  · obtain ⟨c, d, rfl, rfl, rfl, hc, hd, rfl⟩ := fetchRVV_eq_done h
    exact .inr ⟨r, c, d, a, b, rfl, rfl, rfl, hc, hd, by rw [binaryOp_of_resolve f hc hd]; rfl⟩
  · exact .inl ⟨t, by simp [binaryOp, h], fetchRVV_eq_raised h⟩

/-- What an instruction leaves, case by case (R117, R118): for each meaning its one write, for each check its
fault. -/
inductive ExecLeaves : Instr → State → State → Prop where
  | nop (s : State) : ExecLeaves .nop s s
  | hlt (s : State) : ExecLeaves .hlt s s.clearRun
  | exit (s : State) (h : sint (s.readReg .ra) = 0) :
      ExecLeaves .exec s (s.latchExit (s.readReg .rb)).clearRun
  | unsupported (s : State) (h : sint (s.readReg .ra) ≠ 0) : ExecLeaves .exec s (s.raise .unsupportedSyscall)
  | operand (i : Instr) (s t : State) (h : OperandRaise i.opcode.format.positions i.operands s t) :
      ExecLeaves i s t
  | add (r : Reg) (c d : Cell) (a b : Word) (s : State) (hc : resolve c s = some a) (hd : resolve d s = some b) :
      ExecLeaves (.add (some (.reg r)) (some c) (some d)) s
        (s.advance.advance.advance.writeReg r (add64 a b))
  | sub (r : Reg) (c d : Cell) (a b : Word) (s : State) (hc : resolve c s = some a) (hd : resolve d s = some b) :
      ExecLeaves (.sub (some (.reg r)) (some c) (some d)) s
        (s.advance.advance.advance.writeReg r (sub64 a b))
  | mul (r : Reg) (c d : Cell) (a b : Word) (s : State) (hc : resolve c s = some a) (hd : resolve d s = some b) :
      ExecLeaves (.mul (some (.reg r)) (some c) (some d)) s
        (s.advance.advance.advance.writeReg r (mul64 a b))
  | div (r : Reg) (c d : Cell) (a b : Word) (s : State) (hc : resolve c s = some a) (hd : resolve d s = some b)
      (hb : sint b ≠ 0) :
      ExecLeaves (.div (some (.reg r)) (some c) (some d)) s
        (s.advance.advance.advance.writeReg r (div64 a b))
  | divZero (r : Reg) (c d : Cell) (a b : Word) (s : State) (hc : resolve c s = some a)
      (hd : resolve d s = some b) (hb : sint b = 0) :
      ExecLeaves (.div (some (.reg r)) (some c) (some d)) s (s.advance.advance.advance.raise .divisionByZero)
  | sto (r : Reg) (c : Cell) (v : Word) (s : State) (hc : resolve c s = some v) :
      ExecLeaves (.sto (some (.reg r)) (some c)) s (s.advance.advance.writeReg r v)
  | lod (r : Reg) (c : Cell) (a v : Word) (s : State) (hc : resolve c s = some a) (h0 : 0 ≤ sint a)
      (h1 : (sint a).toNat < s.mem.capacity) (hv : s.mem.memRead (sint a).toNat = .imm v) :
      ExecLeaves (.lod (some (.reg r)) (some c)) s (s.advance.advance.writeReg r v)
  | lodOutOfBounds (r : Reg) (c : Cell) (a : Word) (s : State) (hc : resolve c s = some a)
      (h : sint a < 0 ∨ s.mem.capacity ≤ (sint a).toNat) :
      ExecLeaves (.lod (some (.reg r)) (some c)) s (s.advance.advance.raise .outOfBounds)
  | lodKind (r : Reg) (c e : Cell) (a : Word) (s : State) (hc : resolve c s = some a) (h0 : 0 ≤ sint a)
      (h1 : (sint a).toNat < s.mem.capacity) (he : s.mem.memRead (sint a).toNat = e) (hk : ∀ v, e ≠ .imm v) :
      ExecLeaves (.lod (some (.reg r)) (some c)) s (s.advance.advance.raise .invalidOperandKind)

/-- DIV where its operands have values: `DivisionByZero`, or the truncated quotient. -/
theorem execDiv_of_resolve {r : Reg} {c d : Cell} {s : State} {a b : Word} (hc : resolve c s = some a)
    (hd : resolve d s = some b) :
    execDiv (some (.reg r)) (some c) (some d) s =
      .next (if sint b = 0 then s.advance.advance.advance.raise .divisionByZero
        else s.advance.advance.advance.writeReg r (div64 a b)) := by
  simp only [execDiv, fetchRVV_of_resolve hc hd, bind_done]
  split <;> rfl

/-- STO where its source has a value. -/
theorem execSto_of_resolve {r : Reg} {c : Cell} {s : State} {v : Word} (hc : resolve c s = some v) :
    execSto (some (.reg r)) (some c) s = .next (s.advance.advance.writeReg r v) := by
  simp [execSto, fetchRV_of_resolve hc]

/-- Everything the data read path can do (R171). -/
theorem loadImmediate_cases (a : Word) (s : State) :
    ((sint a < 0 ∨ s.mem.capacity ≤ (sint a).toNat) ∧ loadImmediate a s = .raised (s.raise .outOfBounds)) ∨
    (0 ≤ sint a ∧ (sint a).toNat < s.mem.capacity ∧
      ((∃ v, s.mem.memRead (sint a).toNat = .imm v ∧ loadImmediate a s = .done v s) ∨
        ((∀ v, s.mem.memRead (sint a).toNat ≠ .imm v) ∧
          loadImmediate a s = .raised (s.raise .invalidOperandKind)))) := by
  unfold loadImmediate
  by_cases h : sint a < 0 ∨ s.mem.capacity ≤ (sint a).toNat
  · exact .inl ⟨h, if_pos h⟩
  · rw [if_neg h]
    refine .inr ⟨by omega, by omega, ?_⟩
    rcases he : s.mem.memRead (sint a).toNat with o | v | r
    · exact .inr ⟨by simp, rfl⟩
    · exact .inl ⟨v, rfl, rfl⟩
    · exact .inr ⟨by simp, rfl⟩

/-- LOD where its address operand has a value: the read path's answer decides. -/
theorem execLod_of_resolve {r : Reg} {c : Cell} {s : State} {a : Word} (hc : resolve c s = some a) :
    execLod (some (.reg r)) (some c) s =
      ((loadImmediate a s.advance.advance).bind fun v s => .done () (s.writeReg r v)).outcome := by
  simp [execLod, fetchRV_of_resolve hc]

/-- A fault at an operand ends an FRVV instruction there (R10). -/
theorem binaryOp_of_raised (f : Word → Word → Word) {x y z : Fetched} {s t : State}
    (h : fetchRVV x y z s = .raised t) : (binaryOp f x y z s).outcome = .next t := by
  simp [binaryOp, h]

/-- A fault at an operand ends DIV there (R10). -/
theorem execDiv_of_raised {x y z : Fetched} {s t : State} (h : fetchRVV x y z s = .raised t) :
    execDiv x y z s = .next t := by
  simp [execDiv, h]

/-- A fault at an operand ends STO there (R10). -/
theorem execSto_of_raised {x y : Fetched} {s t : State} (h : fetchRV x y s = .raised t) :
    execSto x y s = .next t := by
  simp [execSto, h]

/-- A fault at an operand ends LOD there (R10). -/
theorem execLod_of_raised {x y : Fetched} {s t : State} (h : fetchRV x y s = .raised t) :
    execLod x y s = .next t := by
  simp [execLod, h]

/-- LOD ends where its read path raises (R10, R171). -/
theorem execLod_of_load_raised {r : Reg} {c : Cell} {s t : State} {a : Word} (hc : resolve c s = some a)
    (h : loadImmediate a s.advance.advance = .raised t) : execLod (some (.reg r)) (some c) s = .next t := by
  rw [execLod_of_resolve hc, h]
  rfl

/-- LOD writes what its read path loads (R171). -/
theorem execLod_of_load_done {r : Reg} {c : Cell} {s t : State} {a v : Word} (hc : resolve c s = some a)
    (h : loadImmediate a s.advance.advance = .done v t) :
    execLod (some (.reg r)) (some c) s = .next (t.writeReg r v) := by
  rw [execLod_of_resolve hc, h]
  rfl

/-- THE inversion lemma: every instruction has a next state, and it is one of these (R117, R118). -/
theorem exec_cases (i : Instr) (s : State) : ∃ t, exec i s = .next t ∧ ExecLeaves i s t := by
  cases i with
  | nop => exact ⟨_, rfl, .nop s⟩
  | hlt => exact ⟨_, rfl, .hlt s⟩
  | add x y z =>
    obtain ⟨t, h, ht⟩ | ⟨r, c, d, a, b, rfl, rfl, rfl, hc, hd, h⟩ := binaryOp_cases add64 x y z s
    · exact ⟨t, h, .operand _ _ _ ht⟩
    · exact ⟨_, h, .add r c d a b s hc hd⟩
  | sub x y z =>
    obtain ⟨t, h, ht⟩ | ⟨r, c, d, a, b, rfl, rfl, rfl, hc, hd, h⟩ := binaryOp_cases sub64 x y z s
    · exact ⟨t, h, .operand _ _ _ ht⟩
    · exact ⟨_, h, .sub r c d a b s hc hd⟩
  | mul x y z =>
    obtain ⟨t, h, ht⟩ | ⟨r, c, d, a, b, rfl, rfl, rfl, hc, hd, h⟩ := binaryOp_cases mul64 x y z s
    · exact ⟨t, h, .operand _ _ _ ht⟩
    · exact ⟨_, h, .mul r c d a b s hc hd⟩
  | div x y z =>
    rcases h : fetchRVV x y z s with ⟨⟨r, a, b⟩, t⟩ | t
    · obtain ⟨c, d, rfl, rfl, rfl, hc, hd, rfl⟩ := fetchRVV_eq_done h
      have he := execDiv_of_resolve (r := r) hc hd
      by_cases hb : sint b = 0
      · rw [if_pos hb] at he; exact ⟨_, he, .divZero r c d a b s hc hd hb⟩
      · rw [if_neg hb] at he; exact ⟨_, he, .div r c d a b s hc hd hb⟩
    · exact ⟨t, execDiv_of_raised h, .operand _ _ _ (fetchRVV_eq_raised h)⟩
  | sto x y =>
    rcases h : fetchRV x y s with ⟨⟨r, v⟩, t⟩ | t
    · obtain ⟨c, rfl, rfl, hc, rfl⟩ := fetchRV_eq_done h
      exact ⟨_, execSto_of_resolve hc, .sto r c v s hc⟩
    · exact ⟨t, execSto_of_raised h, .operand _ _ _ (fetchRV_eq_raised h)⟩
  | lod x y =>
    rcases h : fetchRV x y s with ⟨⟨r, a⟩, t⟩ | t
    · obtain ⟨c, rfl, rfl, hc, rfl⟩ := fetchRV_eq_done h
      obtain ⟨hr, hl⟩ | ⟨h0, h1, ⟨v, hv, hl⟩ | ⟨hk, hl⟩⟩ := loadImmediate_cases a s.advance.advance
      · exact ⟨_, execLod_of_load_raised hc hl, .lodOutOfBounds r c a s hc hr⟩
      · exact ⟨_, execLod_of_load_done hc hl, .lod r c a v s hc h0 h1 hv⟩
      · exact ⟨_, execLod_of_load_raised hc hl, .lodKind r c _ a s hc h0 h1 rfl hk⟩
    · exact ⟨t, execLod_of_raised h, .operand _ _ _ (fetchRV_eq_raised h)⟩
  | exec =>
    by_cases h : sint (s.readReg .ra) = 0
    · refine ⟨(s.latchExit (s.readReg .rb)).clearRun, ?_, .exit s h⟩
      simp only [exec, execExec, dispatchSyscall, if_pos h]
      rfl
    · refine ⟨s.raise .unsupportedSyscall, ?_, .unsupported s h⟩
      simp only [exec, execExec, dispatchSyscall, if_neg h, outcome_raised]

/-- The inversion of an `exec` that answers a next state. -/
theorem execLeaves_of_exec {i : Instr} {s t : State} (h : exec i s = .next t) : ExecLeaves i s t := by
  obtain ⟨t', h', ht⟩ := exec_cases i s
  rw [h] at h'
  cases h'
  exact ht

/-- No instruction writes memory (R57). -/
theorem ExecLeaves.mem_eq {i : Instr} {s t : State} (h : ExecLeaves i s t) : t.mem = s.mem := by
  cases h with
  | operand _ _ _ h => exact h.leaves.1.1
  | _ => rfl

end Sys2Proof.Machine
end

