-- ==== Sys2Proof/Laws/Memory.lean ====
section
/-! SUPPORT. The Memory Store: a read after a write, and the canonical form that every operation keeps. -/

namespace Sys2Proof.Machine

/-- The order and the no-fill part of the canonical form, for a list alone. -/
abbrev cellsCanonical (l : List (Nat × Cell)) : Prop :=
  l.Pairwise (fun p q => p.1 < q.1) ∧ ∀ p ∈ l, p.2 ≠ fillCell

/-- An address below every listed one reads as the fill. -/
theorem cellsRead_of_lt {l : List (Nat × Cell)} {a : Nat} (h : ∀ p ∈ l, a < p.1) : cellsRead l a = fillCell := by
  induction l with
  | nil => rfl
  | cons p rest ih =>
    have hp := h p (by simp)
    simp only [cellsRead]
    rw [if_neg (by omega)]
    exact ih fun q hq => h q (by simp [hq])

/-- Every address the list gains is the one written. -/
theorem mem_cellsWrite {l : List (Nat × Cell)} {a : Nat} {c : Cell} {p : Nat × Cell}
    (h : p ∈ cellsWrite l a c) : p ∈ l ∨ (p = (a, c) ∧ c ≠ fillCell) := by
  induction l with
  | nil =>
    simp only [cellsWrite] at h
    split at h
    · cases h
    · simp at h; exact .inr ⟨h, ‹_›⟩
  | cons q rest ih =>
    simp only [cellsWrite] at h
    split at h
    · split at h
      · exact .inl h
      · rcases List.mem_cons.1 h with rfl | h
        · exact .inr ⟨rfl, ‹_›⟩
        · exact .inl h
    · split at h
      · split at h
        · exact .inl (List.mem_cons_of_mem _ h)
        · rcases List.mem_cons.1 h with rfl | h
          · exact .inr ⟨rfl, ‹_›⟩
          · exact .inl (List.mem_cons_of_mem _ h)
      · rcases List.mem_cons.1 h with rfl | h
        · exact .inl (by simp)
        · rcases ih h with h | h
          · exact .inl (List.mem_cons_of_mem _ h)
          · exact .inr h

/-- Writing keeps the list canonical. -/
theorem cellsWrite_canonical {l : List (Nat × Cell)} (a : Nat) (c : Cell) (h : cellsCanonical l) :
    cellsCanonical (cellsWrite l a c) := by
  refine ⟨?_, fun p hp => ?_⟩
  · induction l with
    | nil => simp only [cellsWrite]; split <;> simp
    | cons q rest ih =>
      obtain ⟨hord, hfill⟩ := h
      have hrest : cellsCanonical rest :=
        ⟨(List.pairwise_cons.1 hord).2, fun p hp => hfill p (List.mem_cons_of_mem _ hp)⟩
      simp only [cellsWrite]
      split
      · split
        · exact hord
        · refine List.pairwise_cons.2 ⟨fun p hp => ?_, hord⟩
          rcases List.mem_cons.1 hp with rfl | hp
          · assumption
          · have := (List.pairwise_cons.1 hord).1 p hp
            show a < p.1
            omega
      · split
        · split
          · exact hrest.1
          · subst a
            exact List.pairwise_cons.2 ⟨(List.pairwise_cons.1 hord).1, hrest.1⟩
        · refine List.pairwise_cons.2 ⟨fun p hp => ?_, ih hrest⟩
          rcases mem_cellsWrite hp with hp | ⟨rfl, _⟩
          · exact (List.pairwise_cons.1 hord).1 p hp
          · show q.1 < a
            omega
  · rcases mem_cellsWrite hp with hp | ⟨rfl, hc⟩
    · exact h.2 p hp
    · exact hc

/-- A read after a write to the same address gives the cell written. -/
theorem cellsRead_cellsWrite_same {l : List (Nat × Cell)} (a : Nat) (c : Cell) (h : cellsCanonical l) :
    cellsRead (cellsWrite l a c) a = c := by
  induction l with
  | nil => simp only [cellsWrite]; split <;> simp_all [cellsRead]
  | cons q rest ih =>
    obtain ⟨hord, hfill⟩ := h
    have hlt := (List.pairwise_cons.1 hord).1
    have hrest : cellsCanonical rest :=
      ⟨(List.pairwise_cons.1 hord).2, fun p hp => hfill p (List.mem_cons_of_mem _ hp)⟩
    simp only [cellsWrite]
    split
    · split
      · subst c
        exact cellsRead_of_lt fun p hp => by
          rcases List.mem_cons.1 hp with rfl | hp
          · assumption
          · have := hlt p hp
            omega
      · simp [cellsRead]
    · split
      · split
        · subst a; subst c
          exact cellsRead_of_lt hlt
        · simp [cellsRead]
      · simp only [cellsRead]
        rw [if_neg (by assumption)]
        exact ih hrest

/-- A write leaves every other address alone. -/
theorem cellsRead_cellsWrite_other {l : List (Nat × Cell)} {a b : Nat} (c : Cell) (h : cellsCanonical l)
    (hab : b ≠ a) : cellsRead (cellsWrite l a c) b = cellsRead l b := by
  induction l with
  | nil =>
    simp only [cellsWrite]
    split
    · rfl
    · simp [cellsRead, hab]
  | cons q rest ih =>
    obtain ⟨hord, hfill⟩ := h
    have hlt := (List.pairwise_cons.1 hord).1
    have hrest : cellsCanonical rest :=
      ⟨(List.pairwise_cons.1 hord).2, fun p hp => hfill p (List.mem_cons_of_mem _ hp)⟩
    simp only [cellsWrite]
    split
    · split
      · rfl
      · simp [cellsRead, hab]
    · split
      · split
        · subst a
          simp [cellsRead, hab]
        · subst a
          simp [cellsRead, hab]
      · simp only [cellsRead, ih hrest]

/-- What the canonical form says of the list alone. -/
theorem wf_canonical {m : Memory} (h : m.wf) : cellsCanonical m.cells := ⟨h.1, fun p hp => (h.2.1 p hp).1⟩

/-- The one lemma of a cell write: it answers for the address written and for every other, and keeps the size and the
cursor. -/
theorem memWrite_spec {m : Memory} (a : Nat) (c : Cell) (h : m.wf) :
    (m.memWrite a c).memRead a = c ∧ (∀ b, b ≠ a → (m.memWrite a c).memRead b = m.memRead b) ∧
      (m.memWrite a c).capacity = m.capacity ∧ (m.memWrite a c).cursor = m.cursor :=
  ⟨cellsRead_cellsWrite_same a c (wf_canonical h),
    fun _ hb => cellsRead_cellsWrite_other c (wf_canonical h) hb, rfl, rfl⟩

/-- A cell write inside the memory keeps the canonical form. -/
theorem memWrite_keeps_wf {m : Memory} {a : Nat} (c : Cell) (ha : a < m.capacity) (h : m.wf) :
    (m.memWrite a c).wf := by
  have hc := cellsWrite_canonical a c (wf_canonical h)
  refine ⟨hc.1, fun p hp => ⟨hc.2 p hp, ?_⟩, h.2.2⟩
  rcases mem_cellsWrite hp with hp | ⟨rfl, _⟩
  · exact (h.2.1 p hp).2
  · exact ha

/-- `create` gives the canonical form. -/
theorem create_wf (n : Nat) : (Memory.create n).wf := by simp [Memory.wf, Memory.create]

/-- `set` keeps the canonical form. -/
theorem set_keeps_wf {m : Memory} (a : Nat) (c : Cell) (h : m.wf) : (m.set a c).2.wf := by
  unfold Memory.set
  split
  · exact h
  · exact memWrite_keeps_wf c (by omega) h

/-- `appendSequential` keeps the canonical form, the cursor in `0 .. CAPACITY` with it. -/
theorem appendSequential_keeps_wf {m : Memory} (c : Cell) (h : m.wf) : (m.appendSequential c).2.wf := by
  unfold Memory.appendSequential
  split
  · exact h
  · obtain ⟨h1, h2, _⟩ := memWrite_keeps_wf (a := m.cursor) c (by omega) h
    exact ⟨h1, h2, by show m.cursor + 1 ≤ m.capacity; omega⟩

/-- A loader's appends keep the canonical form. -/
theorem appendAll_keeps_wf (cs : List Cell) {m : Memory} (h : m.wf) : (m.appendAll cs).2.wf := by
  induction cs generalizing m with
  | nil => exact h
  | cons c cs ih =>
    have hc := appendSequential_keeps_wf c h
    simp only [Memory.appendAll]
    split <;> rename_i heq <;> rw [heq] at hc
    · exact hc
    · exact ih hc

/-- Growing the memory keeps the canonical form. -/
theorem grow_keeps_wf {m : Memory} (n : Nat) (h : m.wf) : (m.grow n).wf :=
  ⟨h.1, fun p hp => ⟨(h.2.1 p hp).1, Nat.lt_of_lt_of_le (h.2.1 p hp).2 (Nat.le_add_right _ _)⟩,
    Nat.le_trans h.2.2 (Nat.le_add_right _ _)⟩

/-- Placing words keeps the canonical form. -/
theorem placeWords_keeps_wf (ws : List CellWord) {m : Memory} (a : Nat) (h : m.wf) : (m.placeWords a ws).wf := by
  induction ws generalizing m a with
  | nil => exact h
  | cons w ws ih =>
    simp only [Memory.placeWords]
    split
    · exact ih _ (set_keeps_wf _ _ h)
    · exact ih _ h

/-- R54: `get` answers a cell exactly inside the memory. -/
theorem get_eq_some_iff {m : Memory} {a : Nat} {c : Cell} : m.get a = some c ↔ a < m.capacity ∧ m.memRead a = c := by
  by_cases h : a < m.capacity <;> simp [Memory.get, h]

/-- R54: `get` is absent exactly at and past `CAPACITY`. -/
theorem get_eq_none_iff {m : Memory} {a : Nat} : m.get a = none ↔ m.capacity ≤ a := by
  by_cases h : a < m.capacity
  · simp [Memory.get, h]
  · simp [Memory.get, h, Nat.le_of_not_lt h]

/-- The cells from an address on are what `get` answers there, one after another. -/
theorem getElem?_cellsFrom (m : Memory) (a n k : Nat) (hk : k < n) : (m.cellsFrom a n)[k]? = m.get (a + k) := by
  induction n generalizing a k with
  | zero => omega
  | succ n ih =>
    simp only [Memory.cellsFrom]
    split
    · rename_i h
      have := get_eq_none_iff.1 h
      rw [get_eq_none_iff.2 (by omega)]
      rfl
    · rename_i c h
      cases k with
      | zero => simp [h]
      | succ k => rw [List.getElem?_cons_succ, ih _ _ (by omega), Nat.add_assoc, Nat.add_comm 1 k]

/-- A fresh memory holds `Op(HLT)` at every address it has (R50). -/
theorem get_create {n a : Nat} (h : a < n) : (Memory.create n).get a = some fillCell := by
  simp [Memory.get, Memory.create, Memory.memRead, cellsRead, h]

end Sys2Proof.Machine
end

