-- ==== Sys2Proof/Laws/PerInstr.lean ====
section
/-! SUPPORT. Facts about an instruction as syntax, one lemma per constructor of `Instr`. -/

namespace Sys2Proof.Laws

/-- R82, R84: the number of operands is the one of the opcode's format. -/
def OperandCount.Statement (i : Instr) : Prop :=
  i.operands.length = i.opcode.format.positions.length ∧ i.operands.length + 1 = i.opcode.cells

theorem OperandCount.nop : OperandCount.Statement .nop := ⟨rfl, rfl⟩
theorem OperandCount.hlt : OperandCount.Statement .hlt := ⟨rfl, rfl⟩
theorem OperandCount.add (dest src0 src1 : Fetched) : OperandCount.Statement (.add dest src0 src1) := ⟨rfl, rfl⟩
theorem OperandCount.sub (dest src0 src1 : Fetched) : OperandCount.Statement (.sub dest src0 src1) := ⟨rfl, rfl⟩
theorem OperandCount.mul (dest src0 src1 : Fetched) : OperandCount.Statement (.mul dest src0 src1) := ⟨rfl, rfl⟩
theorem OperandCount.div (dest src0 src1 : Fetched) : OperandCount.Statement (.div dest src0 src1) := ⟨rfl, rfl⟩
theorem OperandCount.sto (dest source : Fetched) : OperandCount.Statement (.sto dest source) := ⟨rfl, rfl⟩
theorem OperandCount.lod (dest address : Fetched) : OperandCount.Statement (.lod dest address) := ⟨rfl, rfl⟩
theorem OperandCount.exec : OperandCount.Statement .exec := ⟨rfl, rfl⟩

/-- A well-formed instruction has every operand present (R82, R91). -/
def WellFormedPresent.Statement (i : Instr) : Prop :=
  i.wellFormed = true → ∀ a ∈ i.operands, a ≠ none

theorem accepts_present {k : PosKind} {a : Fetched} (h : k.accepts a = true) : a ≠ none := by
  rintro rfl; simp [PosKind.accepts] at h

theorem WellFormedPresent.nop : WellFormedPresent.Statement .nop := by
  intro _ a ha; simp [Instr.operands] at ha
theorem WellFormedPresent.hlt : WellFormedPresent.Statement .hlt := by
  intro _ a ha; simp [Instr.operands] at ha
theorem WellFormedPresent.exec : WellFormedPresent.Statement .exec := by
  intro _ a ha; simp [Instr.operands] at ha

/-- The FRVV case of `WellFormedPresent`. -/
theorem present_of_three {d a b : Fetched}
    (h : (PosKind.r.accepts d && PosKind.v.accepts a && PosKind.v.accepts b) = true) :
    ∀ x ∈ [d, a, b], x ≠ none := by
  simp only [Bool.and_eq_true] at h
  simpa using ⟨accepts_present h.1.1, accepts_present h.1.2, accepts_present h.2⟩

/-- The FRV case of `WellFormedPresent`. -/
theorem present_of_two {d a : Fetched} (h : (PosKind.r.accepts d && PosKind.v.accepts a) = true) :
    ∀ x ∈ [d, a], x ≠ none := by
  simp only [Bool.and_eq_true] at h
  simpa using ⟨accepts_present h.1, accepts_present h.2⟩

theorem WellFormedPresent.add (dest src0 src1 : Fetched) : WellFormedPresent.Statement (.add dest src0 src1) :=
  present_of_three
theorem WellFormedPresent.sub (dest src0 src1 : Fetched) : WellFormedPresent.Statement (.sub dest src0 src1) :=
  present_of_three
theorem WellFormedPresent.mul (dest src0 src1 : Fetched) : WellFormedPresent.Statement (.mul dest src0 src1) :=
  present_of_three
theorem WellFormedPresent.div (dest src0 src1 : Fetched) : WellFormedPresent.Statement (.div dest src0 src1) :=
  present_of_three
theorem WellFormedPresent.sto (dest source : Fetched) : WellFormedPresent.Statement (.sto dest source) :=
  present_of_two
theorem WellFormedPresent.lod (dest address : Fetched) : WellFormedPresent.Statement (.lod dest address) :=
  present_of_two

end Sys2Proof.Laws
end

