-- ==== Sys2Proof/Laws/Step.lean ====
section
/-! SUPPORT. What a step can do: one inversion lemma, and the facts about a step that follow from it. -/

namespace Sys2Proof.Machine

/-- R116: a stopped engine's step changes nothing. -/
theorem step_of_not_running {s : State} (h : s.isRunning = false) : step s = .next s := by
  simp [step, h]

/-- Everything a step can do (R110, R111, R116). -/
theorem step_cases (s : State) :
    (s.isRunning = false ∧ step s = .next s) ∨
    (s.isRunning = true ∧ s.mem.get s.ip = none ∧ step s = .next (s.raise .unexpectedEndOfProgram)) ∨
    (∃ c, s.isRunning = true ∧ s.mem.get s.ip = some c ∧ (∀ o, c ≠ .op o) ∧
      step s = .next (s.advance.raise .invalidOperandKind)) ∨
    (∃ o, s.isRunning = true ∧ s.mem.get s.ip = some (.op o) ∧
      step s = exec (assemble o (s.mem.get (s.ip + 1)) (s.mem.get (s.ip + 2)) (s.mem.get (s.ip + 3))) s.advance) := by
  cases hr : s.isRunning
  · exact .inl ⟨rfl, step_of_not_running hr⟩
  · obtain ⟨o, hg, hf⟩ | ⟨hg, hf⟩ | ⟨c, hg, hc, hf⟩ := fetchInstr_cases s
    · exact .inr (.inr (.inr ⟨o, rfl, hg, by simp [step, hr, hf]⟩))
    · exact .inr (.inl ⟨rfl, hg, by simp [step, hr, hf]⟩)
    · exact .inr (.inr (.inl ⟨c, rfl, hg, hc, by simp [step, hr, hf]⟩))

/-- The inversion of a step that answers `next t`: the same four cases, with what the meaning leaves. -/
theorem stepLeaves_of_step {s t : State} (h : step s = .next t) :
    (s.isRunning = false ∧ t = s) ∨
    (s.isRunning = true ∧ s.mem.get s.ip = none ∧ t = s.raise .unexpectedEndOfProgram) ∨
    (∃ c, s.isRunning = true ∧ s.mem.get s.ip = some c ∧ (∀ o, c ≠ .op o) ∧
      t = s.advance.raise .invalidOperandKind) ∨
    (∃ o, s.isRunning = true ∧ s.mem.get s.ip = some (.op o) ∧
      ExecLeaves (assemble o (s.mem.get (s.ip + 1)) (s.mem.get (s.ip + 2)) (s.mem.get (s.ip + 3))) s.advance t) := by
  obtain ⟨hr, he⟩ | ⟨hr, hg, he⟩ | ⟨c, hr, hg, hc, he⟩ | ⟨o, hr, hg, he⟩ := step_cases s <;> rw [he] at h
  · cases h; exact .inl ⟨hr, rfl⟩
  · cases h; exact .inr (.inl ⟨hr, hg, rfl⟩)
  · cases h; exact .inr (.inr (.inl ⟨c, hr, hg, hc, rfl⟩))
  · exact .inr (.inr (.inr ⟨o, hr, hg, execLeaves_of_exec h⟩))

end Sys2Proof.Machine
end

