-- ==== Sys2Proof/Laws/Run.lean ====
section
/-! SUPPORT. What the host's calls answer, from what a step answers. -/

namespace Sys2Proof.Machine

/-- The state a step leaves is the step's answer. -/
theorem stepState_of_step {s t : State} (h : step s = .next t) : stepState s = t := by
  simp [stepState, h]

/-- The loop does nothing to a stopped engine (R116). -/
theorem runLoop_of_not_running (n : Nat) {s : State} (h : s.isRunning = false) : runLoop n s = s := by
  cases n <;> simp [runLoop, h]

/-- The loop of a running engine takes one step and goes on (R115). -/
theorem runLoop_succ (n : Nat) {s : State} (h : s.isRunning = true) :
    runLoop (n + 1) s = runLoop n (stepState s) := by
  simp [runLoop, h]

/-- The host's run of `k + 1` steps is one step and then `k`. -/
theorem core_run_succ {k : Nat} {s t : State} (h : step s = .next t) :
    Host.Core.run Sys2Proof.core (k + 1) s = Host.Core.run Sys2Proof.core k t := by
  have hs : Sys2Proof.core.step s = .next t := h
  simp only [Host.Core.run, hs]

end Sys2Proof.Machine
end

