-- ==== Sys2Proof/Tests/Slice0.lean ====
section
/-! SUPPORT. Tests. Expected results come from spec/95_test_vectors.md (the vector's name stands in the comment) or
from a rule read by hand. A theorem `witness_<Name>` shows that the hypotheses of `Obligations.<Name>` can be met,
at boundary values where a statement has ranges. -/

namespace Sys2Proof.Tests

open Sys2Proof.Machine

/-- A memory of `n` cells with a program appended from address 0 (R242). -/
def mem (n : Nat) (cs : List Cell) : Memory := ((Memory.create n).appendAll cs).2

/-- The engine right after reset over such a memory (R240). -/
def boot (n : Nat) (cs : List Cell) : State := construct (mem n cs)

/-- `ip`, one register, `run`, `fault` and `exit` after one step. -/
def after (s : State) (r : Reg) : Nat × Word × Bool × Option Fault × Option Word :=
  ((stepState s).ip, (stepState s).readReg r, (stepState s).run, (stepState s).fault, (stepState s).exit)

def minW : Word := 0x8000000000000000#64
def maxW : Word := 0x7FFFFFFFFFFFFFFF#64

/-! ## Well-formedness: each check refuses an ill-formed term -/

theorem test_wf_dest_immediate : (Instr.add (some (.imm 1)) (some (.reg .ra)) (some (.reg .rb))).wellFormed = false := by decide
theorem test_wf_dest_opcode : (Instr.sub (some (.op .nop)) (some (.reg .ra)) (some (.reg .rb))).wellFormed = false := by decide
theorem test_wf_dest_absent : (Instr.mul none (some (.reg .ra)) (some (.reg .rb))).wellFormed = false := by decide
theorem test_wf_src0_opcode : (Instr.div (some (.reg .ra)) (some (.op .hlt)) (some (.imm 1))).wellFormed = false := by decide
theorem test_wf_src0_absent : (Instr.add (some (.reg .ra)) none (some (.imm 1))).wellFormed = false := by decide
theorem test_wf_src1_opcode : (Instr.add (some (.reg .ra)) (some (.imm 1)) (some (.op .add))).wellFormed = false := by decide
theorem test_wf_src1_absent : (Instr.add (some (.reg .ra)) (some (.imm 1)) none).wellFormed = false := by decide
theorem test_wf_sto_dest : (Instr.sto (some (.imm 1)) (some (.imm 2))).wellFormed = false := by decide
theorem test_wf_sto_source : (Instr.sto (some (.reg .ra)) (some (.op .hlt))).wellFormed = false := by decide
theorem test_wf_lod_dest : (Instr.lod (some (.imm 0)) (some (.imm (-1)))).wellFormed = false := by decide
theorem test_wf_lod_address_absent : (Instr.lod (some (.reg .ra)) none).wellFormed = false := by decide
theorem test_wf_accepts : (Instr.lod (some (.reg .rk)) (some (.reg .rj))).wellFormed = true := by decide

/-! ## Decoding: one word list per constructor, written out from 30_encoding.md and 95_test_vectors.md -/

theorem test_decode_nop : decode [0x00000000000000000#66] = .ok (.nop, []) := rfl
theorem test_decode_hlt : decode [0x00000000000000001#66] = .ok (.hlt, []) := rfl
/-- S2, first instruction. -/
theorem test_decode_add :
    decode [0x00000000000000002#66, 0x20000000000000000#66, 0x10000000000000001#66, 0x10000000000000002#66] =
      .ok (.add (some (.reg .ra)) (some (.imm 1)) (some (.imm 2)), []) := rfl
/-- P1, address 3. -/
theorem test_decode_sub :
    decode [0x00000000000000003#66, 0x20000000000000001#66, 0x20000000000000000#66, 0x10000000000000003#66] =
      .ok (.sub (some (.reg .rb)) (some (.reg .ra)) (some (.imm 3)), []) := rfl
/-- P2, address 7. -/
theorem test_decode_mul :
    decode [0x00000000000000004#66, 0x20000000000000004#66, 0x20000000000000003#66, 0x20000000000000003#66] =
      .ok (.mul (some (.reg .re)) (some (.reg .rd)) (some (.reg .rd)), []) := rfl
/-- P3, address 11. -/
theorem test_decode_div :
    decode [0x00000000000000005#66, 0x20000000000000002#66, 0x20000000000000000#66, 0x1FFFFFFFFFFFFFFFF#66] =
      .ok (.div (some (.reg .rc)) (some (.reg .ra)) (some (.imm (-1))), []) := rfl
/-- P4, address 1. -/
theorem test_decode_sto :
    decode [0x00000000000000006#66, 0x20000000000000005#66, 0x10000000000000005#66] =
      .ok (.sto (some (.reg .rf)) (some (.imm 5)), []) := rfl
/-- P3, address 15. -/
theorem test_decode_lod :
    decode [0x00000000000000007#66, 0x20000000000000003#66, 0x10000000000000064#66] =
      .ok (.lod (some (.reg .rd)) (some (.imm 100)), []) := rfl
theorem test_decode_exec : decode [0x00000000000000008#66] = .ok (.exec, []) := rfl
/-- S5: the words run out before the last operand. -/
theorem test_decode_cut_off :
    decode [0x00000000000000002#66, 0x20000000000000000#66, 0x10000000000000001#66] =
      .ok (.add (some (.reg .ra)) (some (.imm 1)) none, []) := rfl
/-- R89: the three reserved kinds of word, each at its first payload, and R91. -/
theorem test_decode_refusals :
    decode [0x30000000000000000#66] = .error .reservedTag ∧
    decode [0x00000000000000009#66] = .error .opcodePayload ∧
    decode [0x20000000000000008#66] = .error .registerPayload ∧
    decode [0x10000000000000000#66] = .error .notAnOpcode ∧
    decode [] = .error .noWord := ⟨rfl, rfl, rfl, rfl, rfl⟩
theorem test_encode_sub :
    encode (.sub (some (.reg .rb)) (some (.reg .ra)) (some (.imm 3))) =
      [0x00000000000000003#66, 0x20000000000000001#66, 0x20000000000000000#66, 0x10000000000000003#66] := by decide
/-- The table's rows, with operand words of zeros, which are `Op(NOP)` cells (R87). -/
theorem test_decodeTableWord :
    (List.range 9).map (decodeTableWord 72) =
      [some .nop, some .hlt,
        some (.add (some (.op .nop)) (some (.op .nop)) (some (.op .nop))),
        some (.sub (some (.op .nop)) (some (.op .nop)) (some (.op .nop))),
        some (.mul (some (.op .nop)) (some (.op .nop)) (some (.op .nop))),
        some (.div (some (.op .nop)) (some (.op .nop)) (some (.op .nop))),
        some (.sto (some (.op .nop)) (some (.op .nop))),
        some (.lod (some (.op .nop)) (some (.op .nop))),
        some .exec] := by decide

/-! ## Fetch and decode faults (95_test_vectors.md section 2.1) -/

/-- V-F1 -/
theorem test_fetch_from_empty_memory :
    after (boot 0 []) .ra = (0, 0, true, some .unexpectedEndOfProgram, none) := by decide
/-- S5, V-F3 -/
theorem test_truncated_add :
    after (boot 3 [.op .add, .reg .ra, .imm 1]) .ra = (3, 0, true, some .unexpectedEndOfProgram, none) := by decide
/-- V-F4 -/
theorem test_add_into_the_fill :
    after (boot 8 [.op .add, .reg .ra, .imm 1]) .ra = (4, 0, true, some .invalidOperandKind, none) := by decide
/-- V-F5, V-F6 -/
theorem test_no_opcode_at_ip :
    after (boot 4 [.imm 5]) .ra = (1, 0, true, some .invalidOperandKind, none) ∧
    after (boot 4 [.reg .ra]) .ra = (1, 0, true, some .invalidOperandKind, none) := by decide
/-- V-F11 -/
theorem test_kind_before_end :
    after (boot 2 [.op .add, .imm 1]) .ra = (2, 0, true, some .invalidOperandKind, none) := by decide

/-! ## One step of each instruction -/

/-- V-C3, first step. -/
theorem test_nop : after (boot 1 [.op .nop]) .ra = (1, 0, true, none, none) := by decide
/-- V-F2: a memory in which nothing is written. -/
theorem test_hlt_fill : after (boot 5 []) .ra = (1, 0, false, none, none) := by decide
/-- V-A2 -/
theorem test_add_wraps :
    after (boot 4 [.op .add, .reg .rc, .imm maxW, .imm 1]) .rc = (4, minW, true, none, none) := by decide
/-- V-A5, the order of the operands. -/
theorem test_sub_order :
    after (boot 4 [.op .sub, .reg .rc, .imm 5, .imm 7]) .rc = (4, -2, true, none, none) := by decide
/-- V-A7 -/
theorem test_sub_from_zero :
    after (boot 4 [.op .sub, .reg .rc, .imm 0, .imm minW]) .rc = (4, minW, true, none, none) := by decide
/-- V-A14 -/
theorem test_mul_low_half :
    after (boot 4 [.op .mul, .reg .rc, .imm 0x100000001#64, .imm 0x100000001#64]) .rc =
      (4, 0x200000001#64, true, none, none) := by decide
/-- V-A12 -/
theorem test_mul_signed :
    after (boot 4 [.op .mul, .reg .rc, .imm minW, .imm (-1)]) .rc = (4, minW, true, none, none) := by decide
/-- V-A17, V-A18 and V-A19 -/
theorem test_div_truncates :
    after (boot 4 [.op .div, .reg .rc, .imm (-7), .imm 2]) .rc = (4, -3, true, none, none) ∧
    after (boot 4 [.op .div, .reg .rc, .imm 7, .imm (-2)]) .rc = (4, -3, true, none, none) ∧
    after (boot 4 [.op .div, .reg .rc, .imm (-7), .imm (-2)]) .rc = (4, 3, true, none, none) :=
  ⟨by decide, by decide, by decide⟩
/-- V-A23 and S4 -/
theorem test_div_corners :
    after (boot 4 [.op .div, .reg .rc, .imm minW, .imm (-1)]) .rc = (4, minW, true, none, none) ∧
    after (boot 4 [.op .div, .reg .ra, .imm 10, .imm 0]) .ra = (4, 0, true, some .divisionByZero, none) := by decide
/-- S3, first step. -/
theorem test_sto : after (boot 4 [.op .sto, .reg .ra, .imm 77]) .ra = (3, 77, true, none, none) := by decide
/-- V-D4 -/
theorem test_sto_opcode_source :
    after (boot 3 [.op .sto, .reg .ra, .op .hlt]) .ra = (3, 0, true, some .invalidOperandKind, none) := by decide
/-- V-D5: its own operand cell. -/
theorem test_lod_own_operand :
    after (boot 4 [.op .lod, .reg .ra, .imm 2]) .ra = (3, 2, true, none, none) := by decide
/-- V-D6, V-D7 and V-D8 -/
theorem test_lod_faults :
    after (boot 3 [.op .lod, .reg .ra, .imm (-1)]) .ra = (3, 0, true, some .outOfBounds, none) ∧
    after (boot 3 [.op .lod, .reg .ra, .imm 3]) .ra = (3, 0, true, some .outOfBounds, none) ∧
    after (boot 3 [.op .lod, .reg .ra, .imm 0]) .ra = (3, 0, true, some .invalidOperandKind, none) :=
  ⟨by decide, by decide, by decide⟩
/-- The last step of V-S5: the status is not narrowed. -/
theorem test_exec_exit :
    after ((boot 1 [.op .exec]).writeReg .rb (-1)) .rb = (1, -1, false, none, some (-1)) := by decide
/-- The last step of V-S4: all 64 bits of the code are compared. -/
theorem test_exec_code_width :
    after ((boot 1 [.op .exec]).writeReg .ra 0x100000000#64) .ra =
      (1, 0x100000000#64, true, some .unsupportedSyscall, none) := by decide
/-- V-A28: the destination is both sources. -/
theorem test_same_register :
    after ((boot 4 [.op .mul, .reg .ra, .reg .ra, .reg .ra]).writeReg .ra 3) .ra = (4, 9, true, none, none) := by decide

/-! ## The Memory Store (95_test_vectors.md section 2.6) -/

/-- V-L1 -/
theorem test_append_past_the_end :
    (Memory.create 2).appendAll [.imm 1, .imm 2, .imm 3] =
      (.outOfBounds, { capacity := 2, cells := [(0, .imm 1), (1, .imm 2)], cursor := 2 }) := by decide
/-- V-L2: `set` does not move the cursor. -/
theorem test_set_then_append :
    (((Memory.create 3).set 0 (.op .nop)).2.appendSequential (.op .exec)).2 =
      { capacity := 3, cells := [(0, .op .exec)], cursor := 1 } := by decide
/-- S6 -/
theorem test_set_out_of_range :
    (Memory.create 1).set 1 (.imm 5) = (.outOfBounds, Memory.create 1) ∧
    ((Memory.create 1).set 0 (.imm 5)).1 = .ok := by decide
/-- R50: writing the fill takes the entry out of the list. -/
theorem test_write_of_the_fill :
    ((mem 3 [.imm 1, .imm 2]).set 0 (.op .hlt)).2.cells = [(1, .imm 2)] := by decide

/-! ## Results of the host's calls -/

/-- V-F10 and V-F12: a stopped engine answers its outcome again and changes nothing. -/
theorem test_stopped_engine :
    stepCall { boot 4 [] with run := false } = (.ended .halted, { boot 4 [] with run := false }) ∧
    stepResult ((boot 4 []).raise .divisionByZero) = .ended (.faulted .divisionByZero) := by decide
/-- V-S1 -/
theorem test_run_exit : (runCall (boot 1 [.op .exec])).1 = .exited 0 := by decide

/-! ## The first step after reset: the reset state's capacity is opaque, and a placed instruction runs all the same -/

theorem test_placed_lod_runs_first :
    (stepState (State.reset.withFetchWord 198
      (7 + 2 ^ 66 * (2 * 2 ^ 64) + 2 ^ 132 * (2 ^ 64 + 2)))).readReg .ra = 2 := by decide

/-! ## Witnesses -/

/-- A running engine with values in its registers, used below. -/
def s0 : State := { boot 9 [.op .nop, .imm 4, .reg .ra] with regs := ⟨-1, 7, minW, 0, 8, 1, 3, -1⟩ }

theorem witness_DecodeOfEncodeIsTheInstruction :
    (Instr.div (some (.reg .rk)) (some (.imm minW)) (some (.reg .ra))).wellFormed = true ∧
    Instr.exec.wellFormed = true := by decide
theorem witness_CellAndItsWordDetermineEachOther :
    decodeCell 0x20000000000000007#66 = .ok (.reg .rk) ∧ decodeCell 0x00000000000000008#66 = .ok (.op .exec) ∧
    decodeCell 0x1FFFFFFFFFFFFFFFF#66 = .ok (.imm (-1)) := ⟨rfl, rfl, rfl⟩
theorem witness_LengthIsToldByTheOpcodeCellAlone :
    decode (encodeCell (.op .sto) :: [0x20000000000000000#66, 0x10000000000000001#66, 0x0#66]) =
      .ok (.sto (some (.reg .ra)) (some (.imm 1)), [0x0#66]) ∧
    decode (encodeCell (.op .hlt) :: [0x0#66]) = .ok (.hlt, [0x0#66]) ∧
    decode (encodeCell (.op .add) :: []) = .ok (.add none none none, []) := ⟨rfl, rfl, rfl⟩
theorem witness_StepRunsTheDecodedInstruction :
    (boot 4 [.op .sto, .reg .ra, .imm 77]).isRunning = true ∧
    decode (((boot 4 [.op .sto, .reg .ra, .imm 77]).mem.cellsFrom 0 4).map encodeCell) =
      .ok (.sto (some (.reg .ra)) (some (.imm 77)), [0x00000000000000001#66]) := ⟨rfl, rfl⟩
theorem witness_FetchReturnsTheCellAtIpOrFaults :
    (boot 0 []).mem.capacity ≤ (boot 0 []).ip ∧ (boot 1 []).ip < (boot 1 []).mem.capacity := by decide
theorem witness_DestOperandMustBeARegisterReference :
    fetchNext (boot 0 []) = .raised ((boot 0 []).raise .unexpectedEndOfProgram) ∧
    fetchNext (boot 1 [.reg .rk]) = .done (.reg .rk) (boot 1 [.reg .rk]).advance ∧
    fetchNext (boot 1 [.imm 1]) = .done (.imm 1) (boot 1 [.imm 1]).advance ∧
    fetchNext (boot 1 []) = .done (.op .hlt) (boot 1 []).advance := ⟨rfl, rfl, rfl, rfl⟩
/-- The same four answers of `fetchNext` meet its clauses. -/
theorem witness_ValueOperandIsARegisterOrALiteral :
    fetchNext (boot 0 []) = .raised ((boot 0 []).raise .unexpectedEndOfProgram) ∧
    fetchNext (boot 1 [.reg .ra]) = .done (.reg .ra) (boot 1 [.reg .ra]).advance ∧
    fetchNext (boot 1 [.imm minW]) = .done (.imm minW) (boot 1 [.imm minW]).advance ∧
    fetchNext (boot 1 [.op .exec]) = .done (.op .exec) (boot 1 [.op .exec]).advance := ⟨rfl, rfl, rfl, rfl⟩
theorem witness_StepFaultsWithoutAnOpcodeCell :
    (boot 0 []).isRunning = true ∧ (boot 0 []).mem.capacity ≤ (boot 0 []).ip ∧
    (boot 1 [.imm 0]).isRunning = true ∧ (boot 1 [.imm 0]).mem.get 0 = some (.imm 0) := by decide
theorem witness_StoppedEngineStaysAsItIs :
    ({ boot 1 [] with run := false } : State).isRunning = false ∧
    ((boot 1 []).raise .outOfBounds).isRunning = false := by decide
theorem witness_StepReturnsOkOrTheFault :
    (boot 1 []).isRunning = true ∧ step (boot 1 []) = .next (stepState (boot 1 [])) ∧
    (stepState (boot 1 [])).fault = none ∧ (boot 1 []).mem.get 0 = some (.op .hlt) ∧
    (boot 0 []).isRunning = true ∧ step (boot 0 []) = .next (stepState (boot 0 [])) ∧
    (stepState (boot 0 [])).fault = some .unexpectedEndOfProgram ∧
    (boot 1 [.op .exec]).mem.get 0 = some (.op .exec) ∧ sint ((boot 1 [.op .exec]).readReg .ra) = 0 :=
  ⟨rfl, rfl, rfl, rfl, rfl, rfl, rfl, rfl, rfl⟩
theorem witness_NopOnlyMovesPastItself :
    (boot 1 [.op .nop]).isRunning = true ∧ (boot 1 [.op .nop]).mem.get 0 = some (.op .nop) ∧
    (boot 1 [.op .nop]).ip + 1 = (boot 1 [.op .nop]).mem.capacity := by decide
theorem witness_HltClearsRunAndHalts :
    (boot 1 []).isRunning = true ∧ (boot 1 []).mem.get 0 = some (.op .hlt) ∧ (boot 1 []).exit = none ∧
    1 ≤ (boot 1 []).mem.capacity := by decide
theorem witness_AddWritesTheWrappedSum :
    resolve (.imm maxW) s0 = some maxW ∧ resolve (.reg .rb) s0 = some 7 := by decide
theorem witness_SubWritesTheWrappedDifference :
    resolve (.reg .rc) s0 = some minW ∧ resolve (.imm 1) s0 = some 1 := by decide
theorem witness_MulWritesTheLowHalf :
    resolve (.reg .rc) s0 = some minW ∧ resolve (.reg .ra) s0 = some (-1) := by decide
theorem witness_DivTruncatesTowardZero :
    resolve (.reg .rc) s0 = some minW ∧ resolve (.reg .ra) s0 = some (-1) ∧ sint (-1 : Word) ≠ 0 ∧
    (sint minW = int64Min ∧ sint (-1 : Word) = -1) ∧
    resolve (.imm (-1)) s0 = some (-1) ∧ resolve (.reg .rb) s0 = some 7 ∧ sint (7 : Word) ≠ 0 ∧
    ¬(sint (-1 : Word) = int64Min ∧ sint (7 : Word) = -1) := by decide
theorem witness_DivByZeroFaultsAndWritesNothing :
    resolve (.reg .rc) s0 = some minW ∧ resolve (.reg .rd) s0 = some 0 ∧ sint (0 : Word) = 0 := by decide
theorem witness_ArithmeticOperandFaultsComeInOrder :
    (∀ r, (Cell.imm 0) ≠ .reg r) ∧ (∀ r, (Cell.op .nop) ≠ .reg r) ∧
    (∀ o, (Cell.imm 0) ≠ .op o) ∧ ∀ o, (Cell.reg .ra) ≠ .op o :=
  ⟨nofun, nofun, nofun, nofun⟩
theorem witness_DestinationMayBeASource :
    sint (s0.readReg .ra) ≠ 0 ∧ 0 ≤ sint (s0.readReg .rf) ∧
    s0.mem.get (sint (s0.readReg .rf)).toNat = some (.imm 4) := by decide
theorem witness_StoCopiesIntoARegister :
    resolve (.reg .rk) s0 = some (-1) ∧ resolve (.imm minW) s0 = some minW ∧
    ∀ r, (Cell.imm 0) ≠ .reg r := ⟨by decide, by decide, nofun⟩
/-- The lowest and the highest address: cells 0 and 8 of a memory of 9. -/
theorem witness_LodLoadsTheImmediateAtTheAddress :
    resolve (.imm 8) (boot 9 (List.replicate 9 (.imm 5))) = some 8 ∧ 0 ≤ sint (8 : Word) ∧
    sint (8 : Word) < ((boot 9 (List.replicate 9 (.imm 5))).mem.capacity : Int) ∧
    (boot 9 (List.replicate 9 (.imm 5))).mem.get (sint (8 : Word)).toNat = some (.imm 5) ∧
    resolve (.imm 0) (boot 9 (List.replicate 9 (.imm 5))) = some 0 ∧ 0 ≤ sint (0 : Word) ∧
    (boot 9 (List.replicate 9 (.imm 5))).mem.get (sint (0 : Word)).toNat = some (.imm 5) := by decide
/-- Just below 0, exactly at `CAPACITY`, and at the two ends of the memory with cells that are no immediates. -/
theorem witness_LodFaults :
    resolve (.imm (-1)) s0 = some (-1) ∧ sint (-1 : Word) < 0 ∧
    resolve (.imm 9) s0 = some 9 ∧ (s0.mem.capacity : Int) ≤ sint (9 : Word) ∧
    resolve (.imm 0) s0 = some 0 ∧ s0.mem.get (sint (0 : Word)).toNat = some (.op .nop) ∧
    resolve (.reg .re) s0 = some 8 ∧ s0.mem.get (sint (8 : Word)).toNat = some (.op .hlt) := by decide
theorem witness_ExecDispatchesTheCodeInRa :
    sint ((boot 1 [.op .exec]).readReg .ra) = 0 ∧ sint (s0.readReg .ra) ≠ 0 ∧
    (boot 1 [.op .exec]).isRunning = true ∧ (mem 1 [.op .exec]).get 0 = some (.op .exec) := by decide
theorem witness_StepKeepsTheInvariant :
    (boot 3 [.op .nop]).Inv ∧ step (boot 3 [.op .nop]) = .next (stepState (boot 3 [.op .nop])) :=
  ⟨⟨appendAll_keeps_wf _ (create_wf 3), by decide, by decide, by decide⟩, rfl⟩
theorem witness_ResetMeetsTheInvariant : (mem 3 [.op .nop]).wf := appendAll_keeps_wf _ (create_wf 3)
theorem witness_EveryRunEnds : (boot 0 []).ip ≤ (boot 0 []).mem.capacity := by decide
theorem witness_RunIsStepsUntilTheEngineStops :
    Host.Core.run Sys2Proof.core 1 (boot 1 []) = .next (stepState (boot 1 [])) ∧
    (stepState (boot 1 [])).isRunning = false := ⟨rfl, rfl⟩
theorem witness_RunThatReachesHltReturnsHalted :
    (boot 3 [.op .nop]).Inv ∧
    Host.Core.run Sys2Proof.core 1 (boot 3 [.op .nop]) = .next (stepState (boot 3 [.op .nop])) ∧
    (stepState (boot 3 [.op .nop])).isRunning = true ∧
    (stepState (boot 3 [.op .nop])).mem.get (stepState (boot 3 [.op .nop])).ip = some (.op .hlt) :=
  ⟨witness_StepKeepsTheInvariant.1, rfl, rfl, rfl⟩
theorem witness_NoStepWritesMemory :
    Host.Core.run Sys2Proof.core 2 (boot 3 [.op .nop]) = .next (stepState (stepState (boot 3 [.op .nop]))) := rfl
theorem witness_FaultingStepWritesNothingElse :
    (boot 4 [.op .div, .reg .ra, .imm 10, .imm 0]).isRunning = true ∧
    step (boot 4 [.op .div, .reg .ra, .imm 10, .imm 0]) =
      .next (stepState (boot 4 [.op .div, .reg .ra, .imm 10, .imm 0])) ∧
    (stepState (boot 4 [.op .div, .reg .ra, .imm 10, .imm 0])).fault = some .divisionByZero := ⟨rfl, rfl, rfl⟩
/-- A step that writes a register, so the second case of the statement is met. -/
theorem witness_StepWritesAtMostItsDestination :
    step (boot 4 [.op .sto, .reg .ra, .imm 77]) = .next (stepState (boot 4 [.op .sto, .reg .ra, .imm 77])) ∧
    (stepState (boot 4 [.op .sto, .reg .ra, .imm 77])).regs ≠ (boot 4 [.op .sto, .reg .ra, .imm 77]).regs :=
  ⟨rfl, by decide⟩
/-- One state for the hypotheses, and one step for each of the five faults. -/
theorem witness_IpAfterEachFault :
    (boot 3 [.op .lod, .reg .ra, .imm (-1)]).isRunning = true ∧
    (boot 3 [.op .lod, .reg .ra, .imm (-1)]).ip ≤ (boot 3 [.op .lod, .reg .ra, .imm (-1)]).mem.capacity ∧
    step (boot 3 [.op .lod, .reg .ra, .imm (-1)]) =
      .next (stepState (boot 3 [.op .lod, .reg .ra, .imm (-1)])) ∧
    (stepState (boot 3 [.op .lod, .reg .ra, .imm (-1)])).fault = some .outOfBounds ∧
    (stepState (boot 0 [])).fault = some .unexpectedEndOfProgram ∧
    (stepState (boot 4 [.op .div, .reg .ra, .imm 1, .imm 0])).fault = some .divisionByZero ∧
    (stepState (boot 4 [.op .add, .reg .ra, .imm 1, .op .nop])).fault = some .invalidOperandKind ∧
    (stepState ((boot 1 [.op .exec]).writeReg .ra 1)).fault = some .unsupportedSyscall :=
  ⟨rfl, by decide, rfl, rfl, rfl, rfl, rfl, rfl⟩
theorem witness_IpMovesByTheInstructionLength :
    (boot 1 [.op .nop]).isRunning = true ∧ step (boot 1 [.op .nop]) = .next (stepState (boot 1 [.op .nop])) ∧
    (stepState (boot 1 [.op .nop])).fault = none := ⟨rfl, rfl, rfl⟩
/-- A running, a halted and a faulted engine. -/
theorem witness_EngineStatusAndItsTransitions :
    (boot 1 []).status = .running ∧ step (boot 1 []) = .next (stepState (boot 1 [])) ∧
    State.status { boot 1 [] with run := false } = .halted ∧
    ((boot 1 []).raise .outOfBounds).status = .faulted .outOfBounds ∧
    step ((boot 1 []).raise .outOfBounds) = .next ((boot 1 []).raise .outOfBounds) := ⟨rfl, rfl, rfl, rfl, rfl⟩
theorem witness_RunFlagIsClearedOnceAndNeverSet :
    step (boot 1 []) = .next (stepState (boot 1 [])) ∧ (boot 1 []).isRunning = true ∧
    (stepState (boot 1 [])).run = false ∧ (stepState (boot 0 [])).fault ≠ none ∧
    step { boot 1 [] with run := false } = .next { boot 1 [] with run := false } :=
  ⟨rfl, rfl, rfl, by decide, rfl⟩
theorem witness_OnlyExitWritesTheExitLatch :
    step (boot 1 [.op .exec]) = .next (stepState (boot 1 [.op .exec])) ∧
    (stepState (boot 1 [.op .exec])).exit ≠ (boot 1 [.op .exec]).exit ∧
    ({ s0 with exit := some 1 } : State).exit ≠ none := ⟨rfl, by decide, by decide⟩
theorem witness_LatchCodes :
    ((boot 1 []).raise .unsupportedSyscall).fault = some .unsupportedSyscall ∧
    (boot 1 []).exitValid = false ∧ ((boot 1 []).latchExit (-1)).exit = some (-1) := by decide
/-- A memory that differs in the one cell that the NOP at address 0 does not read, and a LOD whose address it
keeps. -/
theorem witness_StepReadsOnlyItsOwnCells :
    (boot 2 [.op .nop, .imm 1]).isRunning = true ∧ (boot 2 [.op .nop, .imm 1]).mem.get 0 = some (.op .nop) ∧
    (mem 2 [.op .nop, .imm 2]).capacity = (boot 2 [.op .nop, .imm 1]).mem.capacity ∧
    (∀ k, k < Opcode.nop.cells →
      (mem 2 [.op .nop, .imm 2]).get (0 + k) = (boot 2 [.op .nop, .imm 1]).mem.get (0 + k)) ∧
    step (boot 2 [.op .nop, .imm 1]) = .next (stepState (boot 2 [.op .nop, .imm 1])) ∧
    (boot 5 [.op .lod, .reg .ra, .imm 4, .imm 2, .imm 9]).isRunning = true ∧
    (boot 5 [.op .lod, .reg .ra, .imm 4, .imm 2, .imm 9]).mem.get 0 = some (.op .lod) ∧
    (∀ k, k < Opcode.lod.cells → (mem 5 [.op .lod, .reg .ra, .imm 4, .imm 1, .imm 9]).get (0 + k) =
      (boot 5 [.op .lod, .reg .ra, .imm 4, .imm 2, .imm 9]).mem.get (0 + k)) ∧
    (boot 5 [.op .lod, .reg .ra, .imm 4, .imm 2, .imm 9]).mem.get 2 = some (.imm 4) ∧
    (mem 5 [.op .lod, .reg .ra, .imm 4, .imm 1, .imm 9]).get 4 =
      (boot 5 [.op .lod, .reg .ra, .imm 4, .imm 2, .imm 9]).mem.get 4 :=
  ⟨rfl, rfl, rfl, by decide, rfl, rfl, rfl, by decide, rfl, rfl⟩
theorem witness_StepIsSafeExactlyWhenEveryCheckPasses :
    (boot 4 [.op .div, .reg .ra, .imm 1, .imm 0]).isRunning = true ∧
    (boot 5 [.op .lod, .reg .ra, .imm 4, .imm 1, .imm 9]).isRunning = true := by decide
theorem witness_FailedLoaderOperationTouchesNothing :
    ((Memory.create 1).set 1 (.imm 5)).1 = .outOfBounds ∧ (Memory.create 1).capacity ≤ 1 ∧
    ((Memory.create 0).appendSequential (.imm 5)).1 = .outOfBounds ∧
    (Memory.create 0).capacity ≤ (Memory.create 0).cursor := by decide
/-- The highest address of a memory, with a listed cell overwritten by the fill. -/
theorem witness_SetWritesOneCell : (mem 2 [.imm 1, .imm 2]).wf ∧ 1 < (mem 2 [.imm 1, .imm 2]).capacity := by decide
theorem witness_AppendWritesAtTheCursor :
    (mem 2 [.imm 1]).wf ∧ (mem 2 [.imm 1]).cursor < (mem 2 [.imm 1]).capacity := by decide
theorem witness_CreateFillsWithHlt : (0 : Nat) < 1 ∧ (1 : Nat) ≤ 1 := by decide
/-- Two ways to the same memory. -/
theorem witness_EqualReadsMeanEqualMemory :
    (mem 2 [.imm 1]).wf ∧ (((Memory.create 2).appendSequential (.imm 3)).2.set 0 (.imm 1)).2.wf ∧
    (mem 2 [.imm 1]).cursor = (((Memory.create 2).appendSequential (.imm 3)).2.set 0 (.imm 1)).2.cursor ∧
    (mem 2 [.imm 1]).capacity = (((Memory.create 2).appendSequential (.imm 3)).2.set 0 (.imm 1)).2.capacity ∧
    ∀ a, (mem 2 [.imm 1]).get a = (((Memory.create 2).appendSequential (.imm 3)).2.set 0 (.imm 1)).2.get a :=
  ⟨by decide, by decide, rfl, rfl, fun _ => rfl⟩
/-- A program that fills its memory, and one with an unwritten cell after it. -/
theorem witness_AppendedProgramStandsInMemory :
    [Cell.op .nop, .imm 1].length ≤ 2 ∧ [Cell.op .nop, .imm 1][1]? = some (.imm 1) ∧
    [Cell.op .nop].length ≤ 1 ∧ (1 : Nat) < 2 := by decide
theorem witness_PlacedWordRunsNext :
    (boot 1 []).mem.wf ∧ decodeTableWord 72 0 = some .nop ∧
    decodeTableWord 72 5 = some (.div (some (.op .nop)) (some (.op .nop)) (some (.op .nop))) :=
  ⟨by decide, rfl, rfl⟩

end Sys2Proof.Tests
end

