-- ==== Sys2Proof/Proofs/RunFlag.lean ====
section
/-! The run flag and the engine status across a step (10_state.md section 4, R26 and R27). One fact carries both
statements: an instruction either clears `run` and raises no fault, or is neither HLT nor Exit and keeps `run`. -/

namespace Sys2Proof.Machine

/-- R26: the instructions that clear `run`, HLT and EXEC with code 0 (Exit). -/
def ClearsRun (o : Opcode) (s : State) : Prop :=
  o = .hlt ∨ (o = .exec ∧ sint (s.readReg .ra) = 0)

/-- R26: the cell at `ip` begins an instruction that clears `run`. -/
def State.AtClearsRun (s : State) : Prop :=
  s.mem.get s.ip = some (.op .hlt) ∨ (s.mem.get s.ip = some (.op .exec) ∧ sint (s.readReg .ra) = 0)

theorem atClearsRun_iff_of_opcode {s : State} {o : Opcode} (h : s.mem.get s.ip = some (.op o)) :
    s.AtClearsRun ↔ ClearsRun o s := by
  simp [State.AtClearsRun, ClearsRun, h]

theorem not_atClearsRun_of_no_opcode {s : State} (h : ∀ o, s.mem.get s.ip ≠ some (.op o)) : ¬ s.AtClearsRun := by
  simp [State.AtClearsRun, h]

@[simp] theorem clearsRun_advance (o : Opcode) (s : State) : ClearsRun o s.advance ↔ ClearsRun o s := Iff.rfl

@[simp] theorem assemble_opcode (o : Opcode) (c1 c2 c3 : Fetched) : (assemble o c1 c2 c3).opcode = o := by
  cases o <;> rfl

/-- An instruction that clears `run` has no operand position (R82). -/
theorem ClearsRun.positions_eq_nil {o : Opcode} {s : State} (h : ClearsRun o s) : o.format.positions = [] := by
  obtain rfl | ⟨rfl, _⟩ := h <;> rfl

/-- An operand fault needs an operand position to happen at. -/
theorem OperandRaise.positions_ne_nil {ks : List PosKind} {as : List Fetched} {s t : State}
    (h : OperandRaise ks as s t) : ks ≠ [] := by
  cases h <;> simp

/-- R26: HLT and Exit clear `run` and raise no fault; every other instruction, one that faults included, keeps
`run`. -/
theorem ExecLeaves.run_cases {i : Instr} {s t : State} (h : ExecLeaves i s t) :
    (ClearsRun i.opcode s ∧ t.run = false ∧ t.fault = s.fault) ∨ (¬ ClearsRun i.opcode s ∧ t.run = s.run) := by
  cases h with
  | hlt => exact .inl ⟨.inl rfl, rfl, rfl⟩
  | exit _ h0 => exact .inl ⟨.inr ⟨rfl, h0⟩, rfl, rfl⟩
  | unsupported _ h0 => exact .inr ⟨by simp [ClearsRun, Instr.opcode, h0], rfl⟩
  | operand _ _ _ hop =>
    obtain ⟨⟨_, _, hrun, _⟩, _⟩ := hop.leaves
    exact .inr ⟨fun hc => hop.positions_ne_nil hc.positions_eq_nil, hrun⟩
  | _ => exact .inr ⟨by simp [ClearsRun, Instr.opcode], rfl⟩

/-- R26: a step of a running engine clears `run` without a fault at HLT and Exit, and leaves `run` set everywhere
else. -/
theorem step_run_cases {s t : State} (hr : s.isRunning = true) (h : step s = .next t) :
    (s.AtClearsRun ∧ t.run = false ∧ t.fault = none) ∨ (¬ s.AtClearsRun ∧ t.run = true) := by
  obtain ⟨hrun, hfault⟩ := (isRunning_iff s).mp hr
  obtain ⟨hstop, _⟩ | ⟨_, hg, rfl⟩ | ⟨c, _, hg, hc, rfl⟩ | ⟨o, _, hg, hx⟩ := stepLeaves_of_step h
  · simp [hr] at hstop
  · exact .inr ⟨not_atClearsRun_of_no_opcode (by simp [hg]), hrun⟩
  · exact .inr ⟨not_atClearsRun_of_no_opcode (by simpa [hg] using hc), hrun⟩
  · rw [atClearsRun_iff_of_opcode hg]
    simpa [hrun, hfault] using hx.run_cases

/-- R116: a step of a stopped engine answers the state it was given. -/
theorem eq_of_step_of_not_running {s t : State} (hr : s.isRunning = false) (h : step s = .next t) : t = s := by
  rw [step_of_not_running hr] at h
  cases h
  rfl

theorem step_run_false_iff {s t : State} (hr : s.isRunning = true) (h : step s = .next t) :
    t.run = false ↔ s.AtClearsRun := by
  obtain ⟨hc, hrun, _⟩ | ⟨hc, hrun⟩ := step_run_cases hr h <;> simp [hc, hrun]

/-- R26: a fault does not clear `run`. -/
theorem step_fault_keeps_run {s t : State} (hr : s.isRunning = true) (h : step s = .next t) (hf : t.fault ≠ none) :
    t.run = true := by
  obtain ⟨_, _, hnone⟩ | ⟨_, hrun⟩ := step_run_cases hr h
  · exact absurd hnone hf
  · exact hrun

/-- R27: Running goes to Halted exactly at HLT and Exit. -/
theorem step_status_halted_iff {s t : State} (hr : s.isRunning = true) (h : step s = .next t) :
    t.status = .halted ↔ s.AtClearsRun := by
  rw [status_halted_iff]
  obtain ⟨hc, hrun, hnone⟩ | ⟨hc, hrun⟩ := step_run_cases hr h
  · simp [hc, hrun, hnone]
  · simp [hc, hrun]

/-- Settles O40: the status is read off `run` and `fault`, a stopped engine's step keeps the state, and
`step_status_halted_iff` gives the way from Running to Halted. -/
theorem engineStatusAndItsTransitions : Obligations.EngineStatusAndItsTransitions := by
  refine ⟨fun s => ⟨fun f hf => (status_faulted_iff s f).mpr hf, fun hf hrun => (status_halted_iff s).mpr ⟨hrun, hf⟩,
    fun hf hrun => (status_running_iff s).mpr ((isRunning_iff s).mpr ⟨hrun, hf⟩)⟩, fun s t h => ⟨?_, ?_⟩⟩
  · intro hs
    have hr : s.isRunning = false := Bool.eq_false_iff.mpr fun hr => hs ((status_running_iff s).mpr hr)
    rw [eq_of_step_of_not_running hr h]
  · intro hs
    have hr : s.isRunning = true := (status_running_iff s).mp hs
    exact ⟨step_status_halted_iff hr h, fun f hf => (status_faulted_iff t f).mpr hf⟩

/-- Settles O41, from `step_run_cases` for a running engine; an engine with `run` clear is stopped and stays as it
is. -/
theorem runFlagIsClearedOnceAndNeverSet : Obligations.RunFlagIsClearedOnceAndNeverSet := by
  refine ⟨construct_run, fun s t h => ⟨?_, fun hr => ⟨step_run_false_iff hr h, step_fault_keeps_run hr h⟩⟩⟩
  intro hrun
  have hr : s.isRunning = false := by simp [State.isRunning, hrun]
  rw [eq_of_step_of_not_running hr h, hrun]

end Sys2Proof.Machine
end

section
/-! The loader's writes at the edge of the memory (20_memory.md section 1, R52 to R55). `set` and `appendSequential`
each answer one of two ways, told apart by whether the address written is inside the memory; what a failed write leaves
and what no write touches follow from those equations. -/

namespace Sys2Proof.Machine

@[simp] theorem memWrite_capacity (m : Memory) (a : Nat) (c : Cell) : (m.memWrite a c).capacity = m.capacity := rfl

/-- R52: `set` at or past `CAPACITY` fails. -/
theorem set_of_capacity_le {m : Memory} {a : Nat} (c : Cell) (h : m.capacity ≤ a) :
    m.set a c = (.outOfBounds, m) := if_pos h

/-- R52: `set` inside the memory is the cell write. -/
theorem set_of_lt_capacity {m : Memory} {a : Nat} (c : Cell) (h : a < m.capacity) :
    m.set a c = (.ok, m.memWrite a c) := if_neg (Nat.not_le_of_lt h)

/-- R53: `appendSequential` at a full cursor fails. -/
theorem appendSequential_of_capacity_le {m : Memory} (c : Cell) (h : m.capacity ≤ m.cursor) :
    m.appendSequential c = (.outOfBounds, m) := if_pos h

/-- R53: `appendSequential` with room is the cell write at the cursor, and moves the cursor on by one. -/
theorem appendSequential_of_lt_capacity {m : Memory} (c : Cell) (h : m.cursor < m.capacity) :
    m.appendSequential c = (.ok, { m.memWrite m.cursor c with cursor := m.cursor + 1 }) :=
  if_neg (Nat.not_le_of_lt h)

/-- R52: `set` fails exactly at and past `CAPACITY`. -/
theorem set_outOfBounds_iff {m : Memory} {a : Nat} {c : Cell} :
    (m.set a c).1 = .outOfBounds ↔ m.capacity ≤ a := by
  obtain h | h := Nat.lt_or_ge a m.capacity
  · simp [set_of_lt_capacity c h, h]
  · simp [set_of_capacity_le c h, h]

/-- R53: `appendSequential` fails exactly when the cursor is at or past `CAPACITY`. -/
theorem appendSequential_outOfBounds_iff {m : Memory} {c : Cell} :
    (m.appendSequential c).1 = .outOfBounds ↔ m.capacity ≤ m.cursor := by
  obtain h | h := Nat.lt_or_ge m.cursor m.capacity
  · simp [appendSequential_of_lt_capacity c h, h]
  · simp [appendSequential_of_capacity_le c h, h]

@[simp] theorem set_capacity (m : Memory) (a : Nat) (c : Cell) : (m.set a c).2.capacity = m.capacity := by
  obtain h | h := Nat.lt_or_ge a m.capacity
  · simp [set_of_lt_capacity c h]
  · simp [set_of_capacity_le c h]

@[simp] theorem appendSequential_capacity (m : Memory) (c : Cell) :
    (m.appendSequential c).2.capacity = m.capacity := by
  obtain h | h := Nat.lt_or_ge m.cursor m.capacity
  · simp [appendSequential_of_lt_capacity c h]
  · simp [appendSequential_of_capacity_le c h]

/-- Settles O45: a write that answers `OutOfBounds` was past the end, where its equation gives the memory back. -/
theorem failedLoaderOperationTouchesNothing : Obligations.FailedLoaderOperationTouchesNothing := by
  refine fun m a c => ⟨fun h => ?_, fun h => ?_, fun h => ⟨set_outOfBounds_iff.mpr h, get_eq_none_iff.mpr h⟩,
    appendSequential_outOfBounds_iff.mpr, set_capacity m a c, appendSequential_capacity m c⟩
  · rw [set_of_capacity_le c (set_outOfBounds_iff.mp h)]
  · rw [appendSequential_of_capacity_le c (appendSequential_outOfBounds_iff.mp h)]

end Sys2Proof.Machine
end

section
/-! What the decoder answers on words that begin with an opcode cell (30_encoding.md sections 2 to 4). The cells it
takes after the opcode cell are `o.cells - 1` in number, a function of the opcode's format alone. -/

namespace Sys2Proof

/-- R87: an opcode's canonical word spells that opcode. -/
@[simp] theorem decodeCell_encodeCell_op (o : Opcode) : decodeCell (encodeCell (.op o)) = .ok (.op o) := by
  have hfits : o.number % 2 ^ 64 = o.number := by
    have := opcode_number_lt o
    omega
  simp only [decodeCell, encodeCell, cellTag_append, cellPayload_append, BitVec.toNat_ofNat, hfits,
    opcode_ofNumber_number]

/-- R80, R84: behind an opcode cell the decoder answers exactly when the operand words it takes spell cells; it then
assembles those cells and leaves the words after them. -/
theorem decode_op_cons_eq_ok_iff {o : Opcode} {ws rest : List CellWord} {i : Instr} :
    decode (encodeCell (.op o) :: ws) = .ok (i, rest) ↔
      ∃ cs, decodeWords (ws.take (o.cells - 1)) = .ok cs ∧
        i = assemble o cs[0]? cs[1]? cs[2]? ∧ rest = ws.drop (o.cells - 1) := by
  simp only [decode, decodeCell_encodeCell_op]
  cases decodeWords (ws.take (o.cells - 1)) with
  | error e => simp
  | ok cs => simp [eq_comm]

/-- R82: the length of an opcode of a known format. -/
theorem Opcode.cells_eq_of_format {o : Opcode} {f : Format} (h : o.format = f) : o.cells = f.cells :=
  congrArg Format.cells h

/-- R84: the decoder leaves the words past the opcode's own, and its format says how many those are. -/
theorem rest_eq_drop_of_format {o : Opcode} {f : Format} {ws rest : List CellWord}
    (hrest : rest = ws.drop (o.cells - 1)) (h : o.format = f) : rest = ws.drop (f.cells - 1) := by
  rw [hrest, Opcode.cells_eq_of_format h]

/-- R82, R87: the opcodes of each format. -/
theorem Opcode.format_eq_f0_iff (o : Opcode) : o.format = .f0 ↔ o = .nop ∨ o = .hlt ∨ o = .exec := by
  cases o <;> decide

theorem Opcode.format_eq_frv_iff (o : Opcode) : o.format = .frv ↔ o = .sto ∨ o = .lod := by
  cases o <;> decide

theorem Opcode.format_eq_frvv_iff (o : Opcode) :
    o.format = .frvv ↔ o = .add ∨ o = .sub ∨ o = .mul ∨ o = .div := by
  cases o <;> decide

/-- Settles O6: `decode_op_cons_eq_ok_iff` gives the instruction and the words left, and the opcode's format gives the
number of cells. -/
theorem lengthIsToldByTheOpcodeCellAlone : Obligations.LengthIsToldByTheOpcodeCellAlone := by
  refine ⟨fun o ws rest i h => ?_, fun o => ⟨o.format_eq_f0_iff, o.format_eq_frv_iff, o.format_eq_frvv_iff,
    Opcode.cells_eq_of_format, Opcode.cells_eq_of_format, Opcode.cells_eq_of_format⟩⟩
  obtain ⟨cs, _, rfl, hrest⟩ := decode_op_cons_eq_ok_iff.mp h
  exact ⟨assemble_opcode o _ _ _, rest_eq_drop_of_format hrest, rest_eq_drop_of_format hrest,
    rest_eq_drop_of_format hrest⟩

end Sys2Proof
end

section
/-! The fetch unit and the operand fetch in an R position (40_fetch_decode.md sections 1 and 2, R110 and R112).
`fetchNext` answers by the cell at `ip`; the two inversions below turn its answer into that cell, and `fetchDest`
answers by the cell. -/

namespace Sys2Proof.Machine

/-- R110: the fetch unit is done exactly with the cell at `ip`, one cell on. -/
theorem fetchNext_eq_done_iff {s t : State} {c : Cell} :
    fetchNext s = .done c t ↔ s.mem.get s.ip = some c ∧ t = s.advance := by
  unfold fetchNext
  cases s.mem.get s.ip with
  | none => simp
  | some d => simp [eq_comm]

/-- R110: the fetch unit raises exactly where no cell stands at `ip`. -/
theorem fetchNext_eq_raised_iff {s t : State} :
    fetchNext s = .raised t ↔ s.mem.get s.ip = none ∧ t = s.raise .unexpectedEndOfProgram := by
  unfold fetchNext
  cases s.mem.get s.ip with
  | none => simp [eq_comm]
  | some d => simp

/-- Settles O9: the inversions of `fetchNext` name the cell at `ip`, and `fetchDest` has one equation per kind of
cell, none of which mentions the register file. -/
theorem destOperandMustBeARegisterReference : Obligations.DestOperandMustBeARegisterReference := by
  refine fun s => ⟨fun t h => ?_, fun r t h => ?_, fun v t h => ?_, fun o t h => ?_⟩
  · obtain ⟨hg, rfl⟩ := fetchNext_eq_raised_iff.mp h
    rw [hg, fetchDest_none]
  · obtain ⟨hg, rfl⟩ := fetchNext_eq_done_iff.mp h
    rw [hg]
    exact ⟨fetchDest_reg r s, fun f => fetchDest_reg r { s with regs := f }⟩
  · obtain ⟨hg, rfl⟩ := fetchNext_eq_done_iff.mp h
    rw [hg]
    exact fetchDest_imm v s
  · obtain ⟨hg, rfl⟩ := fetchNext_eq_done_iff.mp h
    rw [hg]
    exact fetchDest_op o s

end Sys2Proof.Machine
end

section
/-! What the host's calls answer for a running engine (40_fetch_decode.md section 3, R114 and R115): `step()` answers by
the fault latch of the state that the step leaves, and `run()` ends after one step where that step stops the engine. -/

namespace Sys2Proof.Machine

/-- R114: `step()` of a running engine answers `ok` when its step latches no fault. -/
theorem stepCall_of_step_of_no_fault {s t : State} (hr : s.isRunning = true) (h : step s = .next t)
    (hf : t.fault = none) : stepCall s = (.ok, t) := by
  simp [stepCall, stepResult, hr, stepState_of_step h, hf]

/-- R114: `step()` of a running engine answers the fault that its step latches. -/
theorem stepCall_of_step_of_fault {s t : State} {f : Fault} (hr : s.isRunning = true) (h : step s = .next t)
    (hf : t.fault = some f) : stepCall s = (.ended (.faulted f), t) := by
  simp [stepCall, stepResult, hr, stepState_of_step h, hf]

/-- R115: a fault goes before an exit status and a halt. -/
theorem outcome_of_fault {s : State} {f : Fault} (hf : s.fault = some f) : s.outcome = .faulted f := by
  simp [State.outcome, hf]

/-- R27: an engine with a latched fault has stopped. -/
theorem not_running_of_fault {s : State} {f : Fault} (hf : s.fault = some f) : s.isRunning = false := by
  simp [State.isRunning, hf]

/-- R115: `run()` of a running engine whose next step stops it is that one step. -/
theorem runCall_of_step_of_stopped {s t : State} (hr : s.isRunning = true) (h : step s = .next t)
    (ht : t.isRunning = false) : runCall s = (t.outcome, t) := by
  rw [runCall, runLoop_succ _ hr, stepState_of_step h, runLoop_of_not_running _ ht]

/-- R114: at HLT and Exit, `step()` answers `ok` and leaves the engine Halted. -/
theorem stepCall_of_atClearsRun {s t : State} (hr : s.isRunning = true) (h : step s = .next t)
    (hc : s.AtClearsRun) : stepCall s = (.ok, t) ∧ t.status = .halted := by
  have hhalt : t.status = .halted := (step_status_halted_iff hr h).mpr hc
  obtain ⟨_, hnone⟩ := (status_halted_iff t).mp hhalt
  exact ⟨stepCall_of_step_of_no_fault hr h hnone, hhalt⟩

/-- Settles O13: the fault latch after the step decides what `step()` answers, a fault stops the run at once, and HLT
and Exit are the two instructions that clear `run`. -/
theorem stepReturnsOkOrTheFault : Obligations.StepReturnsOkOrTheFault := by
  refine fun s t hr h => ⟨stepCall_of_step_of_no_fault hr h, fun f hf => ⟨?_, ?_, ?_⟩,
    fun hhlt => stepCall_of_atClearsRun hr h (.inl hhlt),
    fun hexec h0 => stepCall_of_atClearsRun hr h (.inr ⟨hexec, h0⟩)⟩
  · exact stepCall_of_step_of_fault hr h hf
  · exact (status_faulted_iff t f).mpr hf
  · rw [runCall_of_step_of_stopped hr h (not_running_of_fault hf), outcome_of_fault hf]

end Sys2Proof.Machine
end

section
/-! NOP and HLT (41_control.md, R140 and R141). The opcode cell at `ip` names the one way a step of a running engine
goes; from there each instruction is its meaning on the state one cell on. -/

namespace Sys2Proof.Machine

@[simp] theorem isRunning_clearRun (s : State) : s.clearRun.isRunning = false := rfl

@[simp] theorem exec_nop (s : State) : exec .nop s = .next s := rfl

@[simp] theorem exec_hlt (s : State) : exec .hlt s = .next s.clearRun := rfl

/-- R111: a running engine with an opcode cell at `ip` runs the instruction which that cell begins. -/
theorem step_of_opcode {s : State} {o : Opcode} (hr : s.isRunning = true) (hg : s.mem.get s.ip = some (.op o)) :
    step s = exec (assemble o (s.mem.get (s.ip + 1)) (s.mem.get (s.ip + 2)) (s.mem.get (s.ip + 3))) s.advance := by
  obtain ⟨hstop, _⟩ | ⟨_, hnone, _⟩ | ⟨c, _, hc, hno, _⟩ | ⟨o', _, ho, he⟩ := step_cases s
  · simp [hr] at hstop
  · simp [hg] at hnone
  · rw [hg, Option.some.injEq] at hc
    exact absurd hc.symm (hno o)
  · rw [hg, Option.some.injEq, Cell.op.injEq] at ho
    rw [he, ho]

/-- R110: a running engine with `ip` at or past `CAPACITY` takes `UnexpectedEndOfProgram`. -/
theorem step_of_capacity_le {s : State} (hr : s.isRunning = true) (h : s.mem.capacity ≤ s.ip) :
    step s = .next (s.raise .unexpectedEndOfProgram) := by
  have hg : s.mem.get s.ip = none := get_eq_none_iff.mpr h
  obtain ⟨hstop, _⟩ | ⟨_, _, he⟩ | ⟨c, _, hc, _, _⟩ | ⟨o, _, ho, _⟩ := step_cases s
  · simp [hr] at hstop
  · exact he
  · simp [hg] at hc
  · simp [hg] at ho

/-- R140: a step at NOP moves `ip` past it. -/
theorem step_nop {s : State} (hr : s.isRunning = true) (hg : s.mem.get s.ip = some (.op .nop)) :
    step s = .next s.advance := by
  rw [step_of_opcode hr hg, assemble, exec_nop]

/-- R141: a step at HLT moves `ip` past it and clears `run`. -/
theorem step_hlt {s : State} (hr : s.isRunning = true) (hg : s.mem.get s.ip = some (.op .hlt)) :
    step s = .next s.advance.clearRun := by
  rw [step_of_opcode hr hg, assemble, exec_hlt]

/-- R115: without a fault and without an exit status the outcome is a plain halt. -/
theorem outcome_of_no_fault_of_no_exit {s : State} (hf : s.fault = none) (hx : s.exit = none) :
    s.outcome = .halted := by
  simp [State.outcome, hf, hx]

/-- R115, R141: `run()` at HLT is that one step, and its outcome is `halted`. -/
theorem runCall_hlt {s : State} (hr : s.isRunning = true) (hg : s.mem.get s.ip = some (.op .hlt))
    (hx : s.exit = none) : runCall s = (.halted, s.advance.clearRun) := by
  obtain ⟨_, hf⟩ := (isRunning_iff s).mp hr
  rw [runCall_of_step_of_stopped hr (step_hlt hr hg) (isRunning_clearRun _),
    outcome_of_no_fault_of_no_exit (s := s.advance.clearRun) hf hx]

/-- Settles O14: `step_nop` for the step, and past the last cell `step_of_capacity_le` for the one after it. -/
theorem nopOnlyMovesPastItself : Obligations.NopOnlyMovesPastItself := by
  refine ⟨rfl, rfl, rfl, exec_nop, fun s hr hg => ⟨step_nop hr hg, fun hlast => ?_⟩⟩
  have hend : s.advance.mem.capacity ≤ s.advance.ip := Nat.le_of_eq hlast.symm
  exact step_of_capacity_le (s := s.advance) hr hend

/-- Settles O15: `step_hlt` for the step, `step_status_halted_iff` for the status after it, `runCall_hlt` for the run;
a fresh memory holds HLT at address 0, where the engine starts. -/
theorem hltClearsRunAndHalts : Obligations.HltClearsRunAndHalts := by
  refine ⟨rfl, rfl, rfl, exec_hlt, fun s hr hg => ⟨step_hlt hr hg, ?_, ?_, runCall_hlt hr hg⟩, fun n hn => ?_⟩
  · exact (status_running_iff s).mpr hr
  · exact (step_status_halted_iff hr (step_hlt hr hg)).mpr (.inl hg)
  · have hfill : (Memory.create n).get 0 = some (.op .hlt) := get_create hn
    exact runCall_hlt (s := construct (Memory.create n)) rfl hfill rfl

end Sys2Proof.Machine
end

section
/-! EXEC (44_syscall.md, R190 and R191). The dispatcher answers one of two ways, told apart by the code alone; EXEC is
the dispatcher on the code in RA, and a step at EXEC is that meaning on the state one cell on. -/

namespace Sys2Proof.Machine

/-- R191: code 0 is Exit, with the status the snapshot holds in RB. -/
theorem dispatchSyscall_of_zero {code : Word} (snap : RegFile) (s : State) (h : sint code = 0) :
    dispatchSyscall code snap s = .done () (s.latchExit (snap.read .rb)).clearRun := if_pos h

/-- R190: every code other than 0 raises `UnsupportedSyscall`. -/
theorem dispatchSyscall_of_ne_zero {code : Word} (snap : RegFile) (s : State) (h : sint code ≠ 0) :
    dispatchSyscall code snap s = .raised (s.raise .unsupportedSyscall) := if_neg h

/-- R190, R193: EXEC hands the dispatcher the code in RA and the whole register file. -/
theorem exec_exec (s : State) : exec .exec s = (dispatchSyscall (s.readReg .ra) s.regs s).outcome := rfl

theorem exec_exec_of_zero {s : State} (h : sint (s.readReg .ra) = 0) :
    exec .exec s = .next (s.latchExit (s.readReg .rb)).clearRun := by
  rw [exec_exec, dispatchSyscall_of_zero s.regs s h, outcome_done, State.readReg]

theorem exec_exec_of_ne_zero {s : State} (h : sint (s.readReg .ra) ≠ 0) :
    exec .exec s = .next (s.raise .unsupportedSyscall) := by
  rw [exec_exec, dispatchSyscall_of_ne_zero s.regs s h, outcome_raised]

/-- R190: a step at EXEC with code 0 moves `ip` past it, latches RB as the exit status and clears `run`. -/
theorem step_exec_of_zero {s : State} (hr : s.isRunning = true) (hg : s.mem.get s.ip = some (.op .exec))
    (h : sint (s.readReg .ra) = 0) : step s = .next (s.advance.latchExit (s.readReg .rb)).clearRun := by
  rw [step_of_opcode hr hg, assemble, exec_exec_of_zero (s := s.advance) h, readReg_advance]

/-- R190: a step at EXEC with any other code moves `ip` past it and takes `UnsupportedSyscall`. -/
theorem step_exec_of_ne_zero {s : State} (hr : s.isRunning = true) (hg : s.mem.get s.ip = some (.op .exec))
    (h : sint (s.readReg .ra) ≠ 0) : step s = .next (s.advance.raise .unsupportedSyscall) := by
  rw [step_of_opcode hr hg, assemble, exec_exec_of_ne_zero (s := s.advance) h]

/-- R190: whatever the code, a step at EXEC leaves `ip` past its cell and writes no register and no memory. -/
theorem step_exec_frame {s : State} (hr : s.isRunning = true) (hg : s.mem.get s.ip = some (.op .exec)) :
    ∃ t, step s = .next t ∧ t.ip = s.ip + 1 ∧ t.regs = s.regs ∧ t.mem = s.mem := by
  by_cases h : sint (s.readReg .ra) = 0
  · exact ⟨_, step_exec_of_zero hr hg h, rfl, rfl, rfl⟩
  · exact ⟨_, step_exec_of_ne_zero hr hg h, rfl, rfl, rfl⟩

/-- R115: without a fault, a latched exit status is the outcome. -/
theorem outcome_of_no_fault_of_exit {s : State} {v : Word} (hf : s.fault = none) (hx : s.exit = some v) :
    s.outcome = .exited v := by
  simp [State.outcome, hf, hx]

/-- R115, R191: `run()` at an Exit is that one step, and its outcome is the status in RB. -/
theorem runCall_exit {s : State} (hr : s.isRunning = true) (hg : s.mem.get s.ip = some (.op .exec))
    (h : sint (s.readReg .ra) = 0) :
    runCall s = (.exited (s.readReg .rb), (s.advance.latchExit (s.readReg .rb)).clearRun) := by
  obtain ⟨_, hf⟩ := (isRunning_iff s).mp hr
  rw [runCall_of_step_of_stopped hr (step_exec_of_zero hr hg h) (isRunning_clearRun _),
    outcome_of_no_fault_of_exit (s := (s.advance.latchExit (s.readReg .rb)).clearRun) hf rfl]

/-- Settles O26: the two answers of the dispatcher for EXEC in every state, `step_exec_frame` for the step, and
`runCall_exit` for the run from reset, where RA and RB hold 0. -/
theorem execDispatchesTheCodeInRa : Obligations.ExecDispatchesTheCodeInRa := by
  refine ⟨rfl, rfl, rfl, fun s => ⟨exec_exec_of_zero, exec_exec_of_ne_zero⟩, fun s => step_exec_frame, fun m hg => ?_⟩
  have hcode : sint ((construct m).readReg .ra) = 0 := rfl
  exact runCall_exit (s := construct m) rfl hg hcode

end Sys2Proof.Machine
end

section
/-! Cells, their words, and the decoder on encoded instructions (30_encoding.md sections 1 to 5). A word's tag and
payload decide what it spells, and the decoder assembles the cells behind the opcode cell, as many as the opcode has
operands. -/

namespace Sys2Proof

/-- R85 to R89: everything `decodeCell` can answer, by the word's tag and payload. -/
theorem decodeCell_cases (w : CellWord) :
    (∃ o, (cellTag w).toNat = 0 ∧ (cellPayload w).toNat = o.number ∧ decodeCell w = .ok (.op o)) ∨
    ((cellTag w).toNat = 1 ∧ decodeCell w = .ok (.imm (cellPayload w))) ∨
    (∃ r, (cellTag w).toNat = 2 ∧ (cellPayload w).toNat = r.number ∧ decodeCell w = .ok (.reg r)) ∨
    ((cellTag w).toNat = 0 ∧ 8 < (cellPayload w).toNat ∧ decodeCell w = .error .opcodePayload) ∨
    ((cellTag w).toNat = 2 ∧ 7 < (cellPayload w).toNat ∧ decodeCell w = .error .registerPayload) ∨
    ((cellTag w).toNat = 3 ∧ decodeCell w = .error .reservedTag) := by
  have htag : (cellTag w).toNat = 0 ∨ (cellTag w).toNat = 1 ∨ (cellTag w).toNat = 2 ∨ (cellTag w).toNat = 3 := by
    have := (cellTag w).isLt
    omega
  obtain h | h | h | h := htag
  · cases ho : Opcode.ofNumber (cellPayload w).toNat with
    | none => simp [decodeCell, h, ho, opcode_ofNumber_eq_none.mp ho]
    | some o => simp [decodeCell, h, opcode_ofNumber_eq_some ho]
  · simp [decodeCell, h]
  · cases hr : Reg.ofNumber (cellPayload w).toNat with
    | none => simp [decodeCell, h, hr, reg_ofNumber_eq_none.mp hr]
    | some r => simp [decodeCell, h, reg_ofNumber_eq_some hr]
  · simp [decodeCell, h]

/-- R85: a word is told by the numbers of its tag and its payload. -/
theorem append_eq_of_toNat {w : CellWord} {t : BitVec 2} {p : Word} (ht : (cellTag w).toNat = t.toNat)
    (hp : (cellPayload w).toNat = p.toNat) : (t ++ p : CellWord) = w := by
  rw [← BitVec.eq_of_toNat_eq ht, ← BitVec.eq_of_toNat_eq hp, tag_append_payload]

/-- R87: an opcode's number fits the payload. -/
theorem opcode_number_toNat (o : Opcode) : (BitVec.ofNat 64 o.number).toNat = o.number := by
  have := opcode_number_lt o
  exact (BitVec.toNat_ofNat _ _).trans (Nat.mod_eq_of_lt (by omega))

/-- R86: a register's number fits the payload. -/
theorem reg_number_toNat (r : Reg) : (BitVec.ofNat 64 r.number).toNat = r.number := by
  have := reg_number_lt r
  exact (BitVec.toNat_ofNat _ _).trans (Nat.mod_eq_of_lt (by omega))

@[simp] theorem decodeCell_encodeCell (c : Cell) : decodeCell (encodeCell c) = .ok c := by
  cases c with
  | op o => exact decodeCell_encodeCell_op o
  | imm v => simp [decodeCell, encodeCell]
  | reg r =>
    simp only [decodeCell, encodeCell, cellTag_append, cellPayload_append, reg_number_toNat, reg_ofNumber_number]
    rfl

theorem encodeCell_of_decodeCell {w : CellWord} {c : Cell} (h : decodeCell w = .ok c) : encodeCell c = w := by
  obtain ⟨o, ht, hp, hd⟩ | ⟨ht, hd⟩ | ⟨r, ht, hp, hd⟩ | ⟨_, _, hd⟩ | ⟨_, _, hd⟩ | ⟨_, hd⟩ := decodeCell_cases w <;>
    rw [hd] at h <;> cases h
  · exact append_eq_of_toNat ht (hp.trans (opcode_number_toNat o).symm)
  · exact append_eq_of_toNat ht rfl
  · exact append_eq_of_toNat ht (hp.trans (reg_number_toNat r).symm)

/-- Settles O2: `decodeCell_cases` names the tag and payload of a word that spells a cell, and these are the word. -/
theorem cellAndItsWordDetermineEachOther : Obligations.CellAndItsWordDetermineEachOther :=
  ⟨decodeCell_encodeCell, fun _ _ => encodeCell_of_decodeCell⟩

/-- Settles O3: the three refusals of `decodeCell_cases` stand under tags and payloads that exclude each other and the
three kinds of cell. -/
theorem exactlyTheReservedWordsAreRefused : Obligations.ExactlyTheReservedWordsAreRefused := by
  intro w
  simp only [← cellTag_toNat, ← cellPayload_toNat]
  obtain ⟨o, ht, hp, hd⟩ | ⟨ht, hd⟩ | ⟨r, ht, hp, hd⟩ | ⟨ht, hp, hd⟩ | ⟨ht, hp, hd⟩ | ⟨ht, hd⟩ := decodeCell_cases w
  · have := opcode_number_lt o
    simp [hd, ht, hp]
    omega
  · simp [hd, ht]
  · have := reg_number_lt r
    simp [hd, ht, hp]
    omega
  · simp [hd, ht, hp]
  · simp [hd, ht, hp]
  · simp [hd, ht]

/-- Settles O4: the tables of R86 and R87, computed. -/
theorem opcodeRegisterAndImmediateWords : Obligations.OpcodeRegisterAndImmediateWords := by
  refine ⟨?_, ?_, ?_⟩ <;> decide

/-- The cells of encoded words are those cells. -/
theorem decodeWords_map_encodeCell (cs : List Cell) : decodeWords (cs.map encodeCell) = .ok cs := by
  induction cs with
  | nil => rfl
  | cons c cs ih => simp only [List.map_cons, decodeWords_cons, decodeCell_encodeCell, ih]

/-- R80, R84: what is assembled depends on the opcode's own operand positions alone. -/
theorem assemble_congr {o : Opcode} {f g : Nat → Fetched} (h : ∀ k, k < o.cells - 1 → f k = g k) :
    assemble o (f 0) (f 1) (f 2) = assemble o (g 0) (g 1) (g 2) := by
  cases o with
  | nop | hlt | exec => rfl
  | sto | lod => simp only [assemble, h 0 (by decide), h 1 (by decide)]
  | add | sub | mul | div => simp only [assemble, h 0 (by decide), h 1 (by decide), h 2 (by decide)]

/-- R80: an instruction is its opcode with its operands in cell order. -/
theorem assemble_opcode_operands (i : Instr) :
    assemble i.opcode i.operands[0]?.join i.operands[1]?.join i.operands[2]?.join = i := by
  cases i <;> rfl

/-- R84: an instruction has one operand for each of its cells but the first. -/
theorem operands_length (i : Instr) : i.operands.length = i.opcode.cells - 1 := by
  cases i <;> rfl

theorem operands_present {i : Instr} (h : i.wellFormed = true) : ∀ a ∈ i.operands, a ≠ none := by
  revert h
  cases i with
  | nop => exact Laws.WellFormedPresent.nop
  | hlt => exact Laws.WellFormedPresent.hlt
  | add x y z => exact Laws.WellFormedPresent.add x y z
  | sub x y z => exact Laws.WellFormedPresent.sub x y z
  | mul x y z => exact Laws.WellFormedPresent.mul x y z
  | div x y z => exact Laws.WellFormedPresent.div x y z
  | sto x y => exact Laws.WellFormedPresent.sto x y
  | lod x y => exact Laws.WellFormedPresent.lod x y
  | exec => exact Laws.WellFormedPresent.exec

/-- Answers that are all present are cells. -/
theorem eq_map_some_of_present {l : List Fetched} (h : ∀ a ∈ l, a ≠ none) : l = (l.filterMap id).map some := by
  induction l with
  | nil => rfl
  | cons a l ih =>
    obtain ⟨ha, hl⟩ := List.forall_mem_cons.mp h
    obtain ⟨c, rfl⟩ := Option.ne_none_iff_exists'.mp ha
    exact congrArg (some c :: ·) (ih hl)

/-- R80, R93: the decoder's answer on the words of an opcode cell, of its operand cells and of whatever follows. -/
theorem decode_encoded_cells {o : Opcode} {cs : List Cell} (h : cs.length = o.cells - 1) (ws : List CellWord) :
    decode (encodeCell (.op o) :: (cs.map encodeCell ++ ws)) = .ok (assemble o cs[0]? cs[1]? cs[2]?, ws) := by
  have hlen : (cs.map encodeCell).length = o.cells - 1 := by rw [List.length_map, h]
  refine decode_op_cons_eq_ok_iff.mpr ⟨cs, ?_, rfl, ?_⟩
  · rw [List.take_left' hlen, decodeWords_map_encodeCell]
  · rw [List.drop_left' hlen]

/-- Settles O1: a well-formed instruction's operands are all cells, as many as the decoder takes behind the opcode
cell, and assembling them gives the instruction. -/
theorem decodeOfEncodeIsTheInstruction : Obligations.DecodeOfEncodeIsTheInstruction := by
  intro i ws hi
  have hcells : i.operands = (i.operands.filterMap id).map some := eq_map_some_of_present (operands_present hi)
  have hlen : (i.operands.filterMap id).length = i.opcode.cells - 1 := by
    rw [← operands_length i, ← List.length_map (f := some), ← hcells]
  have hget (k : Nat) : (i.operands.filterMap id)[k]? = i.operands[k]?.join := by
    conv_rhs => rw [hcells]
    simp only [List.getElem?_map]
    cases (i.operands.filterMap id)[k]? <;> rfl
  rw [encode, List.cons_append, decode_encoded_cells hlen, hget, hget, hget, assemble_opcode_operands]

/-- Settles O5: the listed words are canonical words of cells, so `decode_encoded_cells` decodes them. -/
theorem writtenOutWordsDecode : Obligations.WrittenOutWordsDecode := by
  have hneg : encodeCell (.imm (-7)) = 0x1FFFFFFFFFFFFFFF9#66 := by decide
  refine ⟨decode_encoded_cells (o := .add) (cs := [.reg .ra, .imm 1, .imm 2]) rfl [],
    decode_encoded_cells (o := .div) (cs := [.reg .rd, .reg .rc, .imm 2]) rfl [], ?_,
    decode_encoded_cells (o := .lod) (cs := [.reg .ra, .imm 9]) rfl [],
    decode_encoded_cells (o := .exec) (cs := []) rfl []⟩
  rw [← hneg]
  exact decode_encoded_cells (o := .sto) (cs := [.reg .rc, .imm (-7)]) rfl [encodeCell (.op .hlt)]

end Sys2Proof
end

section
/-! What a running engine's step leaves (10_state.md, 40_fetch_decode.md section 4). Every fact is read once off the
inversion `ExecLeaves` of a meaning, in the terms of its operands, and carried to the step by `runningStep_cases`, where
the operands are the cells behind `ip`. -/

namespace Sys2Proof.Machine

/-- R111: the instruction that a running engine with the opcode `o` at `ip` runs. -/
def State.instrAt (s : State) (o : Opcode) : Instr :=
  assemble o (s.mem.get (s.ip + 1)) (s.mem.get (s.ip + 2)) (s.mem.get (s.ip + 3))

@[simp] theorem instrAt_opcode (s : State) (o : Opcode) : (s.instrAt o).opcode = o := assemble_opcode o _ _ _

theorem operands_length_le (i : Instr) : i.operands.length ≤ 3 := by
  cases i <;> simp [Instr.operands]

/-- R111: `step_of_opcode`, in the terms of `instrAt`. -/
theorem step_eq_exec_instrAt {s : State} {o : Opcode} (hr : s.isRunning = true) (hg : s.mem.get s.ip = some (.op o)) :
    step s = exec (s.instrAt o) s.advance := step_of_opcode hr hg

/-- R80: operand `k` of the instruction at `ip` stands `k + 1` cells on. -/
theorem get_of_operands_instrAt {s : State} {o : Opcode} {k : Nat} {a : Fetched}
    (h : (s.instrAt o).operands[k]? = some a) : s.mem.get (s.ip + 1 + k) = a := by
  obtain rfl | rfl | rfl | hk : k = 0 ∨ k = 1 ∨ k = 2 ∨ 3 ≤ k := by omega
  case inr.inr.inr =>
    rw [List.getElem?_eq_none ((operands_length_le _).trans hk)] at h
    cases h
  all_goals cases o <;> simp [State.instrAt, assemble, Instr.operands] at h <;> exact h

/-- Everything a running engine's step can do: `stepLeaves_of_step` without the stopped engine. -/
theorem runningStep_cases {s t : State} (hr : s.isRunning = true) (h : step s = .next t) :
    (s.mem.capacity ≤ s.ip ∧ t = s.raise .unexpectedEndOfProgram) ∨
    (∃ c, s.mem.get s.ip = some c ∧ (∀ o, c ≠ .op o) ∧ t = s.advance.raise .invalidOperandKind) ∨
    (∃ o, s.mem.get s.ip = some (.op o) ∧ ExecLeaves (s.instrAt o) s.advance t) := by
  obtain ⟨hstop, _⟩ | ⟨_, hg, ht⟩ | ⟨c, _, hg, hc, ht⟩ | ⟨o, _, hg, hx⟩ := stepLeaves_of_step h
  · simp [hr] at hstop
  · exact .inl ⟨get_eq_none_iff.mp hg, ht⟩
  · exact .inr (.inl ⟨c, hg, hc, ht⟩)
  · exact .inr (.inr ⟨o, hg, hx⟩)

theorem lt_capacity_of_get {m : Memory} {a : Nat} {c : Cell} (h : m.get a = some c) : a < m.capacity :=
  (get_eq_some_iff.mp h).1

/-- Settles O27, from the two lemmas that say everything a meaning and a step can do. -/
theorem everyStepHasANextState : Obligations.EveryStepHasANextState := by
  have hexec (i : Instr) (s : State) : ∃ t, exec i s = .next t := by
    obtain ⟨t, h, _⟩ := exec_cases i s
    exact ⟨t, h⟩
  refine ⟨fun s => ?_, hexec⟩
  obtain ⟨_, h⟩ | ⟨_, _, h⟩ | ⟨_, _, _, _, h⟩ | ⟨_, _, _, h⟩ := step_cases s <;> rw [h]
  · exact ⟨_, rfl⟩
  · exact ⟨_, rfl⟩
  · exact ⟨_, rfl⟩
  · exact hexec _ _

/-! ### How far `ip` moves -/

/-- The first `n` operands are present. -/
def PresentBelow (as : List Fetched) (n : Nat) : Prop := ∀ k, k < n → ∃ c, as[k]? = some (some c)

theorem PresentBelow.zero (as : List Fetched) : PresentBelow as 0 := fun _ hk => absurd hk (Nat.not_lt_zero _)

theorem PresentBelow.cons {as : List Fetched} {n : Nat} (c : Cell) (h : PresentBelow as n) :
    PresentBelow (some c :: as) (n + 1) := by
  intro k hk
  cases k with
  | zero => exact ⟨c, rfl⟩
  | succ k => exact h k (by omega)

theorem PresentBelow.le_length {as : List Fetched} {n : Nat} (h : PresentBelow as n) : n ≤ as.length := by
  cases n with
  | zero => exact Nat.zero_le _
  | succ n =>
    obtain ⟨c, hc⟩ := h n (Nat.lt_succ_self n)
    obtain ⟨hlt, _⟩ := List.getElem?_eq_some_iff.mp hc
    exact hlt

/-- R117: the operand that raises is the first that is absent or of the wrong kind; `ip` stands at it if it is absent
and past it if it is not. -/
theorem OperandRaise.cause {ks : List PosKind} {as : List Fetched} {s t : State} (h : OperandRaise ks as s t) :
    ∃ n, PresentBelow as n ∧
      ((as[n]? = some none ∧ t.ip = s.ip + n ∧ t.fault = some .unexpectedEndOfProgram) ∨
        ∃ p c, ks[n]? = some p ∧ as[n]? = some (some c) ∧ p.acceptsCell c = false ∧ t.ip = s.ip + n + 1 ∧
          t.fault = some .invalidOperandKind) := by
  induction h with
  | absent => exact ⟨0, .zero _, .inl ⟨rfl, rfl, rfl⟩⟩
  | kind p c _ _ _ hk => exact ⟨0, .zero _, .inr ⟨p, c, rfl, rfl, hk, rfl, rfl⟩⟩
  | later _ d _ _ s _ _ _ ih =>
    obtain ⟨n, hn, ⟨ha, hip, hf⟩ | ⟨p, c, hp, hc, hk, hip, hf⟩⟩ := ih
    · exact ⟨n + 1, hn.cons d, .inl ⟨ha, by rw [hip, advance_ip]; omega, hf⟩⟩
    · exact ⟨n + 1, hn.cons d, .inr ⟨p, c, hp, hc, hk, by rw [hip, advance_ip]; omega, hf⟩⟩

/-- R117: an instruction moves `ip` past operands that are present, and past no others. -/
theorem ExecLeaves.ip_eq {i : Instr} {s t : State} (h : ExecLeaves i s t) :
    ∃ n, t.ip = s.ip + n ∧ PresentBelow i.operands n := by
  cases h with
  | nop | hlt | exit | unsupported => exact ⟨0, rfl, .zero _⟩
  | operand _ _ _ h =>
    obtain ⟨n, hn, ⟨_, hip, _⟩ | ⟨_, c, _, hc, _, hip, _⟩⟩ := h.cause
    · exact ⟨n, hip, hn⟩
    · refine ⟨n + 1, hip, fun k hk => ?_⟩
      obtain hk | rfl := Nat.lt_succ_iff_lt_or_eq.mp hk
      · exact hn k hk
      · exact ⟨c, hc⟩
  | add | sub | mul | div | divZero => exact ⟨3, rfl, .cons _ (.cons _ (.cons _ (.zero _)))⟩
  | sto | lod | lodOutOfBounds | lodKind => exact ⟨2, rfl, .cons _ (.cons _ (.zero _))⟩

/-- R117: without a fault the instruction has moved `ip` past all its operands. -/
theorem ExecLeaves.ip_eq_of_no_fault {i : Instr} {s t : State} (h : ExecLeaves i s t) (hf : t.fault = none) :
    t.ip = s.ip + i.operands.length := by
  cases h with
  | operand _ _ _ h =>
    obtain ⟨_, hfault, _⟩ := h.leaves
    simp [hf] at hfault
  | _ => rfl

/-- R110: operands that are present stand inside the memory. -/
theorem ip_add_le_capacity {s : State} {o : Opcode} {n : Nat} (hg : s.mem.get s.ip = some (.op o))
    (hn : PresentBelow (s.instrAt o).operands n) : s.ip + 1 + n ≤ s.mem.capacity := by
  cases n with
  | zero => exact lt_capacity_of_get hg
  | succ n =>
    obtain ⟨c, hc⟩ := hn n (Nat.lt_succ_self n)
    exact lt_capacity_of_get (get_of_operands_instrAt hc)

/-- R25, R110: a step never moves `ip` back, moves it past at most four cells, and from inside the memory moves it on
and not past `CAPACITY`. -/
theorem step_ip_bounds {s t : State} (hr : s.isRunning = true) (h : step s = .next t) :
    s.ip ≤ t.ip ∧ t.ip ≤ s.ip + 4 ∧ (s.ip < s.mem.capacity → s.ip < t.ip ∧ t.ip ≤ s.mem.capacity) := by
  obtain ⟨hcap, rfl⟩ | ⟨c, hg, _, rfl⟩ | ⟨o, hg, hx⟩ := runningStep_cases hr h
  · simp only [raise_ip]
    omega
  · have := lt_capacity_of_get hg
    simp only [raise_ip, advance_ip]
    omega
  · obtain ⟨n, hip, hn⟩ := hx.ip_eq
    have := ip_add_le_capacity hg hn
    have := hn.le_length
    have := operands_length_le (s.instrAt o)
    simp only [advance_ip] at hip
    omega

/-- Settles O39: without a fault there was an opcode cell, and `ip` has moved past it and all its operands. -/
theorem ipMovesByTheInstructionLength : Obligations.IpMovesByTheInstructionLength := by
  intro s t hr h hf
  obtain ⟨_, rfl⟩ | ⟨_, _, _, rfl⟩ | ⟨o, hg, hx⟩ := runningStep_cases hr h
  · cases hf
  · cases hf
  · obtain ⟨_, _, hle⟩ := step_ip_bounds hr h
    have hcells : o.cells = (s.instrAt o).operands.length + 1 := by cases o <;> rfl
    refine ⟨o, hg, ?_, (hle (lt_capacity_of_get hg)).2⟩
    rw [hx.ip_eq_of_no_fault hf, advance_ip, hcells]
    omega

/-! ### The exit latch, and the invariant -/

/-- R29: Exit alone writes the exit latch. -/
theorem ExecLeaves.exit_cases {i : Instr} {s t : State} (h : ExecLeaves i s t) :
    t.exit = s.exit ∨
      (i.opcode = .exec ∧ sint (s.readReg .ra) = 0 ∧ t.exit = some (s.readReg .rb) ∧ t.run = false) := by
  cases h with
  | exit _ h0 => exact .inr ⟨rfl, h0, rfl, rfl⟩
  | operand _ _ _ h =>
    obtain ⟨⟨_, _, _, hexit⟩, _⟩ := h.leaves
    exact .inl hexit
  | _ => exact .inl rfl

theorem step_exit_cases {s t : State} (h : step s = .next t) :
    t.exit = s.exit ∨
      (s.isRunning = true ∧ s.mem.get s.ip = some (.op .exec) ∧ sint (s.readReg .ra) = 0 ∧
        t.exit = some (s.readReg .rb) ∧ t.run = false) := by
  cases hr : s.isRunning with
  | false => exact .inl (by rw [eq_of_step_of_not_running hr h])
  | true =>
    obtain ⟨_, rfl⟩ | ⟨_, _, _, rfl⟩ | ⟨o, hg, hx⟩ := runningStep_cases hr h
    · exact .inl rfl
    · exact .inl rfl
    · obtain he | ⟨ho, h0, he, hrun⟩ := hx.exit_cases
      · exact .inl he
      · rw [instrAt_opcode] at ho
        exact .inr ⟨rfl, ho ▸ hg, h0, he, hrun⟩

/-- Settles O42, from `step_exit_cases`: every change of the latch is an Exit's, and an Exit leaves a status. -/
theorem onlyExitWritesTheExitLatch : Obligations.OnlyExitWritesTheExitLatch := by
  intro s t h
  obtain he | hexit := step_exit_cases h
  · exact ⟨fun hne => absurd he hne, fun hs => he ▸ hs⟩
  · refine ⟨fun _ => hexit, fun _ => ?_⟩
    obtain ⟨_, _, _, hsome, _⟩ := hexit
    simp [hsome]

/-- R57: no step writes memory. -/
theorem step_mem {s t : State} (h : step s = .next t) : t.mem = s.mem := by
  obtain ⟨_, rfl⟩ | ⟨_, _, rfl⟩ | ⟨_, _, _, _, rfl⟩ | ⟨o, _, _, hx⟩ := stepLeaves_of_step h
  · rfl
  · rfl
  · rfl
  · exact hx.mem_eq

/-- R29: by the invariant a running engine holds no exit status. -/
theorem exit_eq_none_of_inv {s : State} (hs : s.Inv) (hr : s.isRunning = true) : s.exit = none := by
  obtain ⟨_, _, hexit, _⟩ := hs
  obtain ⟨hrun, _⟩ := (isRunning_iff s).mp hr
  cases he : s.exit with
  | none => rfl
  | some v => simp [he, hrun] at hexit

/-- R25: a step keeps `ip` in `0 .. CAPACITY`; at `CAPACITY` it faults and leaves `ip`. -/
theorem step_ip_le_capacity {s t : State} (hr : s.isRunning = true) (hip : s.ip ≤ s.mem.capacity)
    (h : step s = .next t) : t.ip ≤ s.mem.capacity := by
  obtain hlt | hcap := Nat.lt_or_ge s.ip s.mem.capacity
  · obtain ⟨_, _, hmoves⟩ := step_ip_bounds hr h
    exact (hmoves hlt).2
  · cases h.symm.trans (step_of_capacity_le hr hcap)
    exact hip

theorem step_keeps_inv {s t : State} (hs : s.Inv) (h : step s = .next t) : t.Inv := by
  cases hr : s.isRunning with
  | false => rwa [eq_of_step_of_not_running hr h]
  | true =>
    have hnone : s.exit = none := exit_eq_none_of_inv hs hr
    obtain ⟨hwf, hip, _, _⟩ := hs
    rw [State.Inv, step_mem h]
    refine ⟨hwf, step_ip_le_capacity hr hip h, fun hexit => ?_, fun hfault => ?_⟩
    · obtain he | ⟨_, _, _, _, hrun⟩ := step_exit_cases h
      · rw [he, hnone] at hexit
        cases hexit
      · exact hrun
    · exact step_fault_keeps_run hr h (Option.isSome_iff_ne_none.mp hfault)

/-- Settles O28: a stopped engine stays as it is; for a running one memory is kept, `step_ip_le_capacity` bounds `ip`,
only an Exit writes the exit latch and it clears `run`, and a fault keeps `run`. -/
theorem stepKeepsTheInvariant : Obligations.StepKeepsTheInvariant := fun _ _ => step_keeps_inv

/-! ### The frame of a step -/

/-- R118: an instruction that latches a fault has only moved `ip`. -/
theorem ExecLeaves.fault_frame {i : Instr} {s t : State} (h : ExecLeaves i s t) :
    t.fault = s.fault ∨ FetchLeaves s t := by
  cases h with
  | operand _ _ _ h => exact .inr h.leaves.1
  | unsupported | divZero | lodOutOfBounds | lodKind => exact .inr ⟨rfl, rfl, rfl, rfl⟩
  | _ => exact .inl rfl

theorem step_fault_frame {s t : State} {f : Fault} (hr : s.isRunning = true) (h : step s = .next t)
    (hf : t.fault = some f) : FetchLeaves s t := by
  obtain ⟨_, hnone⟩ := (isRunning_iff s).mp hr
  obtain ⟨_, rfl⟩ | ⟨_, _, _, rfl⟩ | ⟨o, _, hx⟩ := runningStep_cases hr h
  · exact ⟨rfl, rfl, rfl, rfl⟩
  · exact ⟨rfl, rfl, rfl, rfl⟩
  · obtain he | hleaves := hx.fault_frame
    · simp [hf, hnone] at he
    · exact hleaves

/-- Settles O35, from `step_fault_frame` and `step_ip_bounds`. -/
theorem faultingStepWritesNothingElse : Obligations.FaultingStepWritesNothingElse := by
  intro s t f hr h hf
  obtain ⟨hmem, hregs, hrun, hexit⟩ := step_fault_frame hr h hf
  obtain ⟨hge, hle, _⟩ := step_ip_bounds hr h
  exact ⟨hregs, hmem, hrun.trans ((isRunning_iff s).mp hr).1, hexit, hge, hle⟩

/-- R23, R118: an instruction writes no register, or the one that its `dest` operand names and no latch. -/
theorem ExecLeaves.regs_cases {i : Instr} {s t : State} (h : ExecLeaves i s t) :
    t.regs = s.regs ∨
      ∃ r v, (i.opcode = .add ∨ i.opcode = .sub ∨ i.opcode = .mul ∨ i.opcode = .div ∨ i.opcode = .sto ∨
          i.opcode = .lod) ∧ i.operands[0]? = some (some (.reg r)) ∧ t.regs = s.regs.write r v ∧
        t.fault = s.fault ∧ t.run = s.run ∧ t.exit = s.exit := by
  cases h with
  | nop | hlt | exit | unsupported | divZero | lodOutOfBounds | lodKind => exact .inl rfl
  | operand _ _ _ h =>
    obtain ⟨⟨_, hregs, _⟩, _⟩ := h.leaves
    exact .inl hregs
  | add r | sub r | mul r | div r | sto r | lod r =>
    exact .inr ⟨r, _, by simp [Instr.opcode], rfl, rfl, rfl, rfl, rfl⟩

/-- Settles O36: `ExecLeaves.regs_cases` at the instruction at `ip`, whose `dest` operand is the next cell. -/
theorem stepWritesAtMostItsDestination : Obligations.StepWritesAtMostItsDestination := by
  intro s t h
  cases hr : s.isRunning with
  | false => exact .inl (by rw [eq_of_step_of_not_running hr h])
  | true =>
    obtain ⟨_, hnone⟩ := (isRunning_iff s).mp hr
    obtain ⟨_, rfl⟩ | ⟨_, _, _, rfl⟩ | ⟨o, hg, hx⟩ := runningStep_cases hr h
    · exact .inl rfl
    · exact .inl rfl
    · obtain hregs | ⟨r, v, ho, hdest, hregs, hf, hrun, hexit⟩ := hx.regs_cases
      · exact .inl hregs
      · rw [instrAt_opcode] at ho
        refine .inr ⟨o, r, rfl, hg, ho, get_of_operands_instrAt hdest, fun r' hr' => ?_, hf.trans hnone, hrun, hexit⟩
        rw [State.readReg, hregs, read_write_other _ v hr', advance_regs, State.readReg]

/-! ### When a step faults, and where -/

/-- R82: an instruction is well formed when every position accepts its operand. -/
theorem wellFormed_iff_forall₂ (i : Instr) :
    i.wellFormed = true ↔
      List.Forall₂ (fun p a => PosKind.accepts p a = true) i.opcode.format.positions i.operands := by
  cases i <;> simp [Instr.wellFormed, Instr.opcode, Instr.operands, Opcode.format, Format.positions, and_assoc]

/-- R117: an operand fault happens at a position that does not accept its operand. -/
theorem OperandRaise.not_forall₂ {ks : List PosKind} {as : List Fetched} {s t : State} (h : OperandRaise ks as s t) :
    ¬ List.Forall₂ (fun p a => PosKind.accepts p a = true) ks as := by
  induction h with
  | absent => simp [PosKind.accepts]
  | kind _ _ _ _ _ hk => simp [PosKind.accepts, hk]
  | later _ _ _ _ _ _ _ _ ih => simp [ih]

/-- The check an instruction makes after its operands (R153, R171, R190): the divisor is not 0, the address is in range
and holds an immediate, the code is 0. -/
def OwnCheck (i : Instr) (s : State) : Prop :=
  match i with
  | .div _ _ y => ∀ c b, y = some c → resolve c s = some b → sint b ≠ 0
  | .lod _ y => ∀ c a, y = some c → resolve c s = some a →
      0 ≤ sint a ∧ ∃ v, s.mem.get (sint a).toNat = some (.imm v)
  | .exec => sint (s.readReg .ra) = 0
  | .nop | .hlt | .add _ _ _ | .sub _ _ _ | .mul _ _ _ | .sto _ _ => True

/-- R153: the own check of DIV is on its divisor's value. -/
theorem ownCheck_div_iff {x y : Fetched} {d : Cell} {b : Word} {s : State} (hd : resolve d s = some b) :
    OwnCheck (.div x y (some d)) s ↔ sint b ≠ 0 := by
  refine ⟨fun h => h d b rfl hd, fun hb c b' hc hb' => ?_⟩
  cases hc
  cases hd.symm.trans hb'
  exact hb

/-- R171: the own check of LOD is on its address operand's value. -/
theorem ownCheck_lod_iff {x : Fetched} {c : Cell} {a : Word} {s : State} (hc : resolve c s = some a) :
    OwnCheck (.lod x (some c)) s ↔ 0 ≤ sint a ∧ ∃ v, s.mem.get (sint a).toNat = some (.imm v) := by
  refine ⟨fun h => h c a rfl hc, fun ha d a' hd ha' => ?_⟩
  cases hd
  cases hc.symm.trans ha'
  exact ha

theorem accepts_r_reg (r : Reg) : PosKind.r.accepts (some (.reg r)) = true := rfl

/-- R83: a V position accepts a cell that has a value. -/
theorem accepts_v_of_resolve {c : Cell} {s : State} {v : Word} (h : resolve c s = some v) :
    PosKind.v.accepts (some c) = true := acceptsCell_of_resolve h

/-- R117: a meaning latches no fault exactly when its operands are in order and its own check passes. -/
theorem ExecLeaves.fault_eq_none_iff {i : Instr} {s t : State} (hs : s.fault = none) (h : ExecLeaves i s t) :
    t.fault = none ↔ i.wellFormed = true ∧ OwnCheck i s := by
  cases h with
  | nop | hlt => simp [hs, Instr.wellFormed, OwnCheck]
  | exit _ h0 => simp [hs, Instr.wellFormed, OwnCheck, h0]
  | unsupported _ h0 => simp [OwnCheck, h0]
  | operand _ _ _ h =>
    obtain ⟨_, hfault, _⟩ := h.leaves
    have hill : ¬ i.wellFormed = true := fun hwf => h.not_forall₂ ((wellFormed_iff_forall₂ i).mp hwf)
    obtain hf | hf := hfault <;> simp [hf, hill]
  | add _ _ _ _ _ _ hc hd | sub _ _ _ _ _ _ hc hd | mul _ _ _ _ _ _ hc hd =>
    simp [hs, Instr.wellFormed, OwnCheck, accepts_r_reg, accepts_v_of_resolve hc, accepts_v_of_resolve hd]
  | div _ _ _ _ _ _ hc hd hb =>
    simp [hs, Instr.wellFormed, ownCheck_div_iff hd, accepts_r_reg, accepts_v_of_resolve hc,
      accepts_v_of_resolve hd, hb]
  | divZero _ _ _ _ _ _ _ hd hb => simp [ownCheck_div_iff hd, hb]
  | sto _ _ _ _ hc => simp [hs, Instr.wellFormed, OwnCheck, accepts_r_reg, accepts_v_of_resolve hc]
  | lod _ _ _ _ _ hc h0 h1 hv =>
    simp [hs, Instr.wellFormed, ownCheck_lod_iff hc, accepts_r_reg, accepts_v_of_resolve hc, h0,
      get_eq_some_iff, h1, hv]
  | lodOutOfBounds _ _ _ _ hc hr =>
    simp [ownCheck_lod_iff hc, get_eq_some_iff]
    omega
  | lodKind _ _ _ _ _ hc _ _ he hk => simp [ownCheck_lod_iff hc, get_eq_some_iff, he, hk]

/-- The own check of the instruction at `ip`, by its opcode and the cells behind it. -/
theorem ownCheck_instrAt_iff (s : State) (o : Opcode) :
    OwnCheck (s.instrAt o) s.advance ↔
      (o = .div → ∀ c b, s.mem.get (s.ip + 3) = some c → resolve c s = some b → sint b ≠ 0) ∧
      (o = .lod → ∀ c a, s.mem.get (s.ip + 2) = some c → resolve c s = some a →
        0 ≤ sint a ∧ ∃ v, s.mem.get (sint a).toNat = some (.imm v)) ∧
      (o = .exec → sint (s.readReg .ra) = 0) := by
  cases o <;> simp [State.instrAt, assemble, OwnCheck]

/-- Settles O37: without an opcode cell a step faults; with one, `ExecLeaves.fault_eq_none_iff` says when it does. -/
theorem stepIsSafeExactlyWhenEveryCheckPasses : Obligations.StepIsSafeExactlyWhenEveryCheckPasses := by
  intro s hr
  obtain ⟨_, hnone⟩ := (isRunning_iff s).mp hr
  simp only [← ownCheck_instrAt_iff]
  constructor
  · rintro ⟨t, h, hf⟩
    obtain ⟨_, rfl⟩ | ⟨_, _, _, rfl⟩ | ⟨o, hg, hx⟩ := runningStep_cases hr h
    · cases hf
    · cases hf
    · exact ⟨o, hg, (hx.fault_eq_none_iff (s := s.advance) hnone).mp hf⟩
  · rintro ⟨o, hg, hchecks⟩
    obtain ⟨t, h, hx⟩ := exec_cases (s.instrAt o) s.advance
    exact ⟨t, (step_eq_exec_instrAt hr hg).trans h, (hx.fault_eq_none_iff (s := s.advance) hnone).mpr hchecks⟩

/-- R120: the fault an instruction latches, with `ip` after it and its cause. -/
theorem ExecLeaves.fault_cases {i : Instr} {s t : State} (h : ExecLeaves i s t) :
    t.fault = s.fault ∨ OperandRaise i.opcode.format.positions i.operands s t ∨
    (i.opcode = .exec ∧ t.fault = some .unsupportedSyscall ∧ t.ip = s.ip) ∨
    (i.opcode = .div ∧ t.fault = some .divisionByZero ∧ t.ip = s.ip + 3) ∨
    (i.opcode = .lod ∧ t.fault = some .outOfBounds ∧ t.ip = s.ip + 2) ∨
    (i.opcode = .lod ∧ t.fault = some .invalidOperandKind ∧ t.ip = s.ip + 2 ∧
      ∃ c a e, i.operands[1]? = some (some c) ∧ resolve c s = some a ∧ 0 ≤ sint a ∧
        s.mem.get (sint a).toNat = some e ∧ ∀ v, e ≠ .imm v) := by
  cases h with
  | operand _ _ _ h => exact .inr (.inl h)
  | unsupported => exact .inr (.inr (.inl ⟨rfl, rfl, rfl⟩))
  | divZero => exact .inr (.inr (.inr (.inl ⟨rfl, rfl, rfl⟩)))
  | lodOutOfBounds => exact .inr (.inr (.inr (.inr (.inl ⟨rfl, rfl, rfl⟩))))
  | lodKind r c e a _ hc h0 h1 he hk =>
    exact .inr (.inr (.inr (.inr (.inr ⟨rfl, rfl, rfl, c, a, e, rfl, hc, h0, get_eq_some_iff.mpr ⟨h1, he⟩, hk⟩))))
  | _ => exact .inl rfl

/-- The table of R120: what a fault of the step from `s` says of the cells at `ip`, and `ip` after it. -/
inductive FaultCause (s : State) : Fault → Nat → Prop where
  | endOfProgram : FaultCause s .unexpectedEndOfProgram s.mem.capacity
  | notAnOpcode (c : Cell) (hg : s.mem.get s.ip = some c) (hc : ∀ o, c ≠ .op o) :
      FaultCause s .invalidOperandKind (s.ip + 1)
  | operandKind (o : Opcode) (k : Nat) (p : PosKind) (c : Cell) (hg : s.mem.get s.ip = some (.op o))
      (hp : o.format.positions[k]? = some p) (hc : s.mem.get (s.ip + k + 1) = some c)
      (hk : p.acceptsCell c = false) : FaultCause s .invalidOperandKind (s.ip + (k + 1) + 1)
  | loadedKind (c : Cell) (a : Word) (e : Cell) (hg : s.mem.get s.ip = some (.op .lod))
      (hc : s.mem.get (s.ip + 2) = some c) (ha : resolve c s = some a) (h0 : 0 ≤ sint a)
      (he : s.mem.get (sint a).toNat = some e) (hk : ∀ v, e ≠ .imm v) :
      FaultCause s .invalidOperandKind (s.ip + 3)
  | divisionByZero (hg : s.mem.get s.ip = some (.op .div)) : FaultCause s .divisionByZero (s.ip + 4)
  | outOfBounds (hg : s.mem.get s.ip = some (.op .lod)) : FaultCause s .outOfBounds (s.ip + 3)
  | unsupportedSyscall (hg : s.mem.get s.ip = some (.op .exec)) : FaultCause s .unsupportedSyscall (s.ip + 1)

/-- R120: an operand fault of the instruction at `ip`. An absent operand with present ones before it stands at
`CAPACITY`. -/
theorem OperandRaise.faultCause {s t : State} {o : Opcode} {f : Fault} (hg : s.mem.get s.ip = some (.op o))
    (h : OperandRaise o.format.positions (s.instrAt o).operands s.advance t) (hf : t.fault = some f) :
    FaultCause s f t.ip := by
  obtain ⟨n, hn, ⟨ha, hip, hfault⟩ | ⟨p, c, hp, hc, hk, hip, hfault⟩⟩ := h.cause <;>
    rw [hf, Option.some.injEq] at hfault <;> subst hfault
  · have hpast := get_eq_none_iff.mp (get_of_operands_instrAt ha)
    have hcap : t.ip = s.mem.capacity := by
      have := ip_add_le_capacity hg hn
      simp only [advance_ip] at hip
      omega
    exact hcap ▸ .endOfProgram
  · have hcell := get_of_operands_instrAt hc
    rw [Nat.add_right_comm] at hcell
    rw [hip, advance_ip, Nat.add_right_comm s.ip 1 n]
    exact .operandKind o n p c hg hp hcell hk

theorem step_faultCause {s t : State} {f : Fault} (hr : s.isRunning = true) (hle : s.ip ≤ s.mem.capacity)
    (h : step s = .next t) (hf : t.fault = some f) : FaultCause s f t.ip := by
  obtain ⟨_, hnone⟩ := (isRunning_iff s).mp hr
  obtain ⟨hcap, rfl⟩ | ⟨c, hg, hc, rfl⟩ | ⟨o, hg, hx⟩ := runningStep_cases hr h
  · cases hf
    exact (Nat.le_antisymm hle hcap : s.ip = _) ▸ .endOfProgram
  · cases hf
    exact .notAnOpcode c hg hc
  · have hcases := hx.fault_cases
    simp only [instrAt_opcode, hf, advance_ip, advance_fault, hnone, Option.some.injEq, reduceCtorEq,
      false_or] at hcases
    obtain hop | ⟨rfl, rfl, hip⟩ | ⟨rfl, rfl, hip⟩ | ⟨rfl, rfl, hip⟩ |
      ⟨rfl, rfl, hip, c, a, e, hc, ha, h0, he, hk⟩ := hcases
    · exact hop.faultCause hg hf
    · exact hip ▸ .unsupportedSyscall hg
    · exact hip ▸ .divisionByZero hg
    · exact hip ▸ .outOfBounds hg
    · exact hip ▸ .loadedKind c a e hg (get_of_operands_instrAt hc) (by simpa using ha) h0 he hk

/-- Settles O38: each clause reads off the rows of `FaultCause` that its fault has. -/
theorem ipAfterEachFault : Obligations.IpAfterEachFault := by
  intro s t hr hle h
  have hcause (f : Fault) (hf : t.fault = some f) : FaultCause s f t.ip := step_faultCause hr hle h hf
  generalize t.ip = n at hcause
  refine ⟨fun hf => ?_, fun hf => ?_, fun hf => ?_, fun hf => ?_, fun hf => ?_⟩
  · cases hcause _ hf with
    | endOfProgram => rfl
  · cases hcause _ hf with
    | divisionByZero hg => exact ⟨hg, rfl⟩
  · cases hcause _ hf with
    | outOfBounds hg => exact ⟨hg, rfl⟩
  · cases hcause _ hf with
    | unsupportedSyscall hg => exact ⟨hg, rfl⟩
  · cases hcause _ hf with
    | notAnOpcode c hg hc => exact .inl ⟨rfl, c, hg, hc⟩
    | operandKind o k p c hg hp hc hk => exact .inr (.inl ⟨o, k, p, c, hg, hp, hc, hk, rfl⟩)
    | loadedKind c a e hg hc ha h0 he hk => exact .inr (.inr ⟨rfl, hg, c, a, e, hc, ha, h0, he, hk⟩)

end Sys2Proof.Machine
end

section
/-! The meanings of the instructions with operands (42_arithmetic.md, 43_data_movement.md). `exec_of_execLeaves` makes
the inversion `ExecLeaves` a characterisation, so an instruction's result is read off one constructor of it. -/

namespace Sys2Proof.Machine

/-! ### A meaning answers what its inversion says -/

theorem fetchDest_of_not_accepts {c : Cell} (s : State) (h : PosKind.r.acceptsCell c = false) :
    fetchDest (some c) s = .raised (s.advance.raise .invalidOperandKind) := by
  cases c with
  | op o => rfl
  | imm v => rfl
  | reg r => cases h

theorem fetchValue_of_not_accepts {c : Cell} (s : State) (h : PosKind.v.acceptsCell c = false) :
    fetchValue (some c) s = .raised (s.advance.raise .invalidOperandKind) := by
  cases c with
  | op o => rfl
  | imm v => cases h
  | reg r => cases h

theorem exists_reg_of_accepts {c : Cell} (h : PosKind.r.acceptsCell c = true) : ∃ r, c = .reg r := by
  cases c with
  | op o => cases h
  | imm v => cases h
  | reg r => exact ⟨r, rfl⟩

theorem exists_resolve_of_accepts {c : Cell} (s : State) (h : PosKind.v.acceptsCell c = true) :
    ∃ v, resolve c s = some v := by
  cases c with
  | op o => cases h
  | imm v => exact ⟨v, rfl⟩
  | reg r => exact ⟨s.readReg r, rfl⟩

/-- R117: a value operand that raises, as the last of a format. -/
theorem fetchValue_of_operandRaise {y : Fetched} {s t : State} (h : OperandRaise [.v] [y] s t) :
    fetchValue y s = .raised t := by
  cases h with
  | absent => rfl
  | kind _ _ _ _ _ hk => exact fetchValue_of_not_accepts s hk
  | later _ _ _ _ _ _ _ ht => cases ht

/-- R117: the converse of `fetchRV_eq_raised`. -/
theorem fetchRV_of_operandRaise {x y : Fetched} {s t : State} (h : OperandRaise [.r, .v] [x, y] s t) :
    fetchRV x y s = .raised t := by
  cases h with
  | absent => rfl
  | kind _ _ _ _ _ hk => simp [fetchRV, fetchDest_of_not_accepts s hk]
  | later _ _ _ _ _ _ hk ht =>
    obtain ⟨r, rfl⟩ := exists_reg_of_accepts hk
    simp [fetchRV, fetchValue_of_operandRaise ht]

/-- R117: the converse of `fetchRVV_eq_raised`. -/
theorem fetchRVV_of_operandRaise {x y z : Fetched} {s t : State} (h : OperandRaise [.r, .v, .v] [x, y, z] s t) :
    fetchRVV x y z s = .raised t := by
  cases h with
  | absent => rfl
  | kind _ _ _ _ _ hk => simp [fetchRVV, fetchDest_of_not_accepts s hk]
  | later _ _ _ _ _ _ hk ht =>
    obtain ⟨r, rfl⟩ := exists_reg_of_accepts hk
    cases ht with
    | absent => rfl
    | kind _ _ _ _ _ hk => simp [fetchRVV, fetchValue_of_not_accepts s.advance hk]
    | later _ _ _ _ _ _ hk ht =>
      obtain ⟨v, hv⟩ := exists_resolve_of_accepts s.advance hk
      simp [fetchRVV, fetchValue_of_resolve hv, fetchValue_of_operandRaise ht]

/-- R10: an operand fault ends the instruction, whichever it is. -/
theorem exec_of_operandRaise {i : Instr} {s t : State} (h : OperandRaise i.opcode.format.positions i.operands s t) :
    exec i s = .next t := by
  cases i with
  | nop | hlt | exec => exact absurd rfl h.positions_ne_nil
  | add => exact binaryOp_of_raised add64 (fetchRVV_of_operandRaise h)
  | sub => exact binaryOp_of_raised sub64 (fetchRVV_of_operandRaise h)
  | mul => exact binaryOp_of_raised mul64 (fetchRVV_of_operandRaise h)
  | div => exact execDiv_of_raised (fetchRVV_of_operandRaise h)
  | sto => exact execSto_of_raised (fetchRV_of_operandRaise h)
  | lod => exact execLod_of_raised (fetchRV_of_operandRaise h)

/-- R171: the read path of an address in range that holds an immediate answers it. -/
theorem loadImmediate_of_imm {a v : Word} {s : State} (h0 : 0 ≤ sint a) (h1 : (sint a).toNat < s.mem.capacity)
    (hv : s.mem.memRead (sint a).toNat = .imm v) : loadImmediate a s = .done v s := by
  obtain ⟨hr, _⟩ | ⟨_, _, ⟨v', hv', hl⟩ | ⟨hk, _⟩⟩ := loadImmediate_cases a s
  · omega
  · rw [hv, Cell.imm.injEq] at hv'
    rw [hl, hv']
  · exact absurd hv (hk v)

theorem loadImmediate_of_outOfBounds {a : Word} {s : State} (h : sint a < 0 ∨ s.mem.capacity ≤ (sint a).toNat) :
    loadImmediate a s = .raised (s.raise .outOfBounds) := if_pos h

theorem loadImmediate_of_not_imm {a : Word} {s : State} (h0 : 0 ≤ sint a) (h1 : (sint a).toNat < s.mem.capacity)
    (hk : ∀ v, s.mem.memRead (sint a).toNat ≠ .imm v) :
    loadImmediate a s = .raised (s.raise .invalidOperandKind) := by
  obtain ⟨hr, _⟩ | ⟨_, _, ⟨v, hv, _⟩ | ⟨_, hl⟩⟩ := loadImmediate_cases a s
  · omega
  · exact absurd hv (hk v)
  · exact hl

/-- The converse of `execLeaves_of_exec`: `ExecLeaves` lists what `exec` answers. -/
theorem exec_of_execLeaves {i : Instr} {s t : State} (h : ExecLeaves i s t) : exec i s = .next t := by
  cases h with
  | nop | hlt => rfl
  | exit _ h0 => exact exec_exec_of_zero h0
  | unsupported _ h0 => exact exec_exec_of_ne_zero h0
  | operand _ _ _ h => exact exec_of_operandRaise h
  | add _ _ _ _ _ _ hc hd => exact congrArg SubStep.outcome (binaryOp_of_resolve add64 hc hd)
  | sub _ _ _ _ _ _ hc hd => exact congrArg SubStep.outcome (binaryOp_of_resolve sub64 hc hd)
  | mul _ _ _ _ _ _ hc hd => exact congrArg SubStep.outcome (binaryOp_of_resolve mul64 hc hd)
  | div r _ _ _ _ _ hc hd hb =>
    have he := execDiv_of_resolve (r := r) hc hd
    rw [if_neg hb] at he
    exact he
  | divZero r _ _ _ _ _ hc hd hb =>
    have he := execDiv_of_resolve (r := r) hc hd
    rw [if_pos hb] at he
    exact he
  | sto _ _ _ _ hc => exact execSto_of_resolve hc
  | lod _ _ _ _ _ hc h0 h1 hv =>
    exact execLod_of_load_done hc (loadImmediate_of_imm (s := s.advance.advance) h0 h1 hv)
  | lodOutOfBounds _ _ _ _ hc h =>
    exact execLod_of_load_raised hc (loadImmediate_of_outOfBounds (s := s.advance.advance) h)
  | lodKind _ _ _ _ _ hc h0 h1 he hk =>
    exact execLod_of_load_raised hc (loadImmediate_of_not_imm (s := s.advance.advance) h0 h1 (he ▸ hk))

/-! ### The frames of a write and of a fault -/

theorem sameMemory_of_mem_eq {s t : State} (h : t.mem = s.mem) : s.SameMemory t := by
  simp [State.SameMemory, h]

/-- R118: a register write after a fetch changes that register, and nothing else but `ip`. -/
theorem onlyWrites_writeReg {s u : State} (h : FetchLeaves s u) (hf : u.fault = s.fault) (r : Reg) (v : Word) :
    s.OnlyWrites r (u.writeReg r v) := by
  obtain ⟨hmem, hregs, hrun, hexit⟩ := h
  refine ⟨fun r' hr' => ?_, sameMemory_of_mem_eq hmem, hrun, hf, hexit⟩
  rw [readReg_writeReg_other u v hr', readReg_of_regs hregs]

/-- R118, R215: a fault raised after a fetch changes the latch, and nothing else but `ip`. -/
theorem faultedAt_raise {s u : State} (h : FetchLeaves s u) (f : Fault) : s.FaultedAt f u.ip (u.raise f) := by
  obtain ⟨hmem, hregs, hrun, hexit⟩ := h
  exact ⟨fun r => readReg_of_regs (s := s) (t := u.raise f) hregs r, sameMemory_of_mem_eq hmem, hrun, hexit, rfl, rfl⟩

/-- An instruction whose meaning is one register write after its fetch completes with that value and that frame. -/
theorem exec_completes {i : Instr} {s u : State} {r : Reg} {v : Word} (h : ExecLeaves i s (u.writeReg r v))
    (hu : FetchLeaves s u) (hf : u.fault = s.fault) :
    ∃ t, exec i s = .next t ∧ t.readReg r = v ∧ t.ip = u.ip ∧ s.OnlyWrites r t :=
  ⟨_, exec_of_execLeaves h, readReg_writeReg_same u r v, rfl, onlyWrites_writeReg hu hf r v⟩

/-- An instruction whose meaning is a fault after its fetch takes that fault. -/
theorem exec_faults {i : Instr} {s u : State} {f : Fault} (h : ExecLeaves i s (u.raise f)) (hu : FetchLeaves s u) :
    ∃ t, exec i s = .next t ∧ s.FaultedAt f u.ip t :=
  ⟨_, exec_of_execLeaves h, faultedAt_raise hu f⟩

/-- The fetch of two operands moves `ip` alone. -/
theorem fetchLeaves_two (s : State) : FetchLeaves s s.advance.advance := ⟨rfl, rfl, rfl, rfl⟩

/-- The fetch of three operands moves `ip` alone. -/
theorem fetchLeaves_three (s : State) : FetchLeaves s s.advance.advance.advance := ⟨rfl, rfl, rfl, rfl⟩

/-! ### Arithmetic -/

/-- Settles O16: the write is `add64`, the wrapped signed sum and the sum of bit vectors. -/
theorem addWritesTheWrappedSum : Obligations.AddWritesTheWrappedSum := by
  intro s r c d a b hc hd
  obtain ⟨t, h, hval, hip, hframe⟩ := exec_completes (.add r c d a b s hc hd) (fetchLeaves_three s) rfl
  refine ⟨t, h, ?_, ?_, hip, hframe⟩
  · rw [hval]
    exact dvd_sint_wrap64 _
  · rw [hval, add64_eq, BitVec.add_def]

/-- Settles O17: the write is `sub64`, the wrapped signed difference and the difference of bit vectors. -/
theorem subWritesTheWrappedDifference : Obligations.SubWritesTheWrappedDifference := by
  intro s r c d a b hc hd
  obtain ⟨t, h, hval, hip, hframe⟩ := exec_completes (.sub r c d a b s hc hd) (fetchLeaves_three s) rfl
  refine ⟨t, h, ?_, ?_, hip, hframe⟩
  · rw [hval]
    exact dvd_sint_wrap64 _
  · rw [hval, sub64_eq, BitVec.sub_def, Nat.add_comm]

/-- Settles O18: the write is `mul64`, the wrapped signed product and the product of bit vectors. -/
theorem mulWritesTheLowHalf : Obligations.MulWritesTheLowHalf := by
  intro s r c d a b hc hd
  obtain ⟨t, h, hval, hip, hframe⟩ := exec_completes (.mul r c d a b s hc hd) (fetchLeaves_three s) rfl
  refine ⟨t, h, ?_, ?_, hip, hframe⟩
  · rw [hval]
    exact dvd_sint_wrap64 _
  · rw [hval, mul64_eq]
    exact BitVec.eq_of_toNat_eq (by simp)

/-- A truncated quotient is negative exactly when the signs differ and the dividend is at least as large. -/
theorem tdiv_neg_iff {x y : Int} (hy : y ≠ 0) :
    x.tdiv y < 0 ↔ (x < 0 ↔ 0 < y) ∧ y.natAbs ≤ x.natAbs := by
  rw [← Int.sign_eq_neg_one_iff_neg, Int.sign_tdiv]
  split
  case isTrue hlt => omega
  case isFalse hle =>
    have hx : x ≠ 0 := by omega
    obtain hxs | hxs := lt_or_gt_of_ne hx <;> obtain hys | hys := lt_or_gt_of_ne hy
    · rw [Int.sign_eq_neg_one_of_neg hxs, Int.sign_eq_neg_one_of_neg hys]
      omega
    · rw [Int.sign_eq_neg_one_of_neg hxs, Int.sign_eq_one_of_pos hys]
      omega
    · rw [Int.sign_eq_one_of_pos hxs, Int.sign_eq_neg_one_of_neg hys]
      omega
    · rw [Int.sign_eq_one_of_pos hxs, Int.sign_eq_one_of_pos hys]
      omega

/-- Settles O19: the write is `div64`; `sint_div64` makes it the truncated quotient of the signed readings. -/
theorem divTruncatesTowardZero : Obligations.DivTruncatesTowardZero := by
  intro s r c d a b hc hd hb
  obtain ⟨t, h, hval, hip, hframe⟩ := exec_completes (.div r c d a b s hc hd hb) (fetchLeaves_three s) rfl
  refine ⟨t, h, fun hover => ?_, fun hover => ?_, hip, hframe⟩
  · rw [hval, div64_overflow hover]
  · rw [hval, sint_div64 hover]
    exact ⟨Int.natAbs_tdiv _ _, tdiv_neg_iff hb⟩

/-- Settles O20: past its three operands DIV raises on a zero divisor. -/
theorem divByZeroFaultsAndWritesNothing : Obligations.DivByZeroFaultsAndWritesNothing :=
  fun s r c d a b hc hd hb => exec_faults (.divZero r c d a b s hc hd hb) (fetchLeaves_three s)

/-! ### Operand faults -/

/-- R117, R118, R120: fetching the operands raises `f` with `ip` at `n`, and changes nothing else. -/
def OperandFault (ks : List PosKind) (as : List Fetched) (s : State) (f : Fault) (n : Nat) : Prop :=
  ∃ t, OperandRaise ks as s t ∧ s.FaultedAt f n t

theorem OperandFault.absent (k : PosKind) (ks : List PosKind) (as : List Fetched) (s : State) :
    OperandFault (k :: ks) (none :: as) s .unexpectedEndOfProgram s.ip :=
  ⟨_, .absent k ks as s, faultedAt_raise (FetchLeaves.refl s) _⟩

theorem OperandFault.kind {k : PosKind} {c : Cell} (ks : List PosKind) (as : List Fetched) (s : State)
    (h : k.acceptsCell c = false) : OperandFault (k :: ks) (some c :: as) s .invalidOperandKind (s.ip + 1) :=
  ⟨_, .kind k c ks as s h, faultedAt_raise (u := s.advance) ⟨rfl, rfl, rfl, rfl⟩ _⟩

theorem OperandFault.later {k : PosKind} {c : Cell} {ks : List PosKind} {as : List Fetched} {s : State} {f : Fault}
    {n : Nat} (hc : k.acceptsCell c = true) (h : OperandFault ks as s.advance f n) :
    OperandFault (k :: ks) (some c :: as) s f n := by
  obtain ⟨t, ht, hframe⟩ := h
  exact ⟨t, .later k c ks as s t hc ht, hframe⟩

theorem exec_of_operandFault {i : Instr} {s : State} {f : Fault} {n : Nat}
    (h : OperandFault i.opcode.format.positions i.operands s f n) : ∃ t, exec i s = .next t ∧ s.FaultedAt f n t := by
  obtain ⟨t, ht, hframe⟩ := h
  exact ⟨t, exec_of_operandRaise ht, hframe⟩

theorem not_accepts_r {c : Cell} (h : ∀ r, c ≠ .reg r) : PosKind.r.acceptsCell c = false := by
  cases c with
  | op o => rfl
  | imm v => rfl
  | reg r => exact absurd rfl (h r)

theorem accepts_v {c : Cell} (h : ∀ o, c ≠ .op o) : PosKind.v.acceptsCell c = true := by
  cases c with
  | op o => exact absurd rfl (h o)
  | imm v => rfl
  | reg r => rfl

/-- R82: ADD, SUB, MUL and DIV fetch a register and two values. -/
theorem exec_frvv_of_operandFault {mk : Fetched → Fetched → Fetched → Instr}
    (hmk : mk = .add ∨ mk = .sub ∨ mk = .mul ∨ mk = .div) {x y z : Fetched} {s : State} {f : Fault} {n : Nat}
    (h : OperandFault [.r, .v, .v] [x, y, z] s f n) : ∃ t, exec (mk x y z) s = .next t ∧ s.FaultedAt f n t := by
  obtain rfl | rfl | rfl | rfl := hmk <;> exact exec_of_operandFault h

/-- Settles O21: the operands are fetched in order, so the first that is absent or of the wrong kind raises. -/
theorem arithmeticOperandFaultsComeInOrder : Obligations.ArithmeticOperandFaultsComeInOrder := by
  intro mk hmk s x y
  refine ⟨?_, fun c hc => ?_, fun r => ?_, fun r o => ?_, fun r c hc => ?_, fun r c o hc => ?_⟩ <;>
    apply exec_frvv_of_operandFault hmk
  · exact .absent _ _ _ s
  · exact .kind _ _ s (not_accepts_r hc)
  · exact .later rfl (.absent _ _ _ s.advance)
  · exact .later rfl (.kind _ _ s.advance rfl)
  · exact .later rfl (.later (accepts_v hc) (.absent _ _ _ s.advance.advance))
  · exact .later rfl (.later (accepts_v hc) (.kind _ _ s.advance.advance rfl))

/-- R82, R117: the operand faults of STO and LOD, which fetch a register and one value. -/
theorem exec_frv_operand_faults {mk : Fetched → Fetched → Instr} (hmk : mk = .sto ∨ mk = .lod) (s : State) :
    (∀ x, ∃ t, exec (mk none x) s = .next t ∧ s.FaultedAt .unexpectedEndOfProgram s.ip t) ∧
    (∀ c x, (∀ r, c ≠ .reg r) →
      ∃ t, exec (mk (some c) x) s = .next t ∧ s.FaultedAt .invalidOperandKind (s.ip + 1) t) ∧
    (∀ r, ∃ t, exec (mk (some (.reg r)) none) s = .next t ∧ s.FaultedAt .unexpectedEndOfProgram (s.ip + 1) t) ∧
    (∀ r o, ∃ t, exec (mk (some (.reg r)) (some (.op o))) s = .next t ∧
      s.FaultedAt .invalidOperandKind (s.ip + 2) t) := by
  have hexec {x y : Fetched} {f : Fault} {n : Nat} (h : OperandFault [.r, .v] [x, y] s f n) :
      ∃ t, exec (mk x y) s = .next t ∧ s.FaultedAt f n t := by
    obtain rfl | rfl := hmk <;> exact exec_of_operandFault h
  exact ⟨fun x => hexec (.absent _ _ _ s), fun c x hc => hexec (.kind _ _ s (not_accepts_r hc)),
    fun r => hexec (.later rfl (.absent _ _ _ s.advance)), fun r o => hexec (.later rfl (.kind _ _ s.advance rfl))⟩

/-! ### Data movement -/

/-- Settles O23: STO's one write, which for `STO r,r` puts back what the register held, and the faults it shares with
LOD. -/
theorem stoCopiesIntoARegister : Obligations.StoCopiesIntoARegister := by
  refine ⟨by decide, rfl, rfl, fun s => ⟨fun r c v hc => ?_, fun r => ?_, exec_frv_operand_faults (.inl rfl) s⟩⟩
  · exact exec_completes (.sto r c v s hc) (fetchLeaves_two s) rfl
  · exact ⟨_, exec_of_execLeaves (.sto r (.reg r) (s.readReg r) s rfl), write_read_self s.regs r⟩

/-- Settles O24: an address that `get` answers with an immediate is in range, and LOD writes that immediate. -/
theorem lodLoadsTheImmediateAtTheAddress : Obligations.LodLoadsTheImmediateAtTheAddress := by
  intro s r c a v hc h0 _ hg
  obtain ⟨h1, hv⟩ := get_eq_some_iff.mp hg
  exact exec_completes (.lod r c a v s hc h0 h1 hv) (fetchLeaves_two s) rfl

/-- Settles O25: the two faults of the read path, raised past both operands, and the operand faults it shares with
STO. -/
theorem lodFaults : Obligations.LodFaults := by
  refine fun s => ⟨fun r c a hc => ⟨fun hrange => ?_, fun e h0 hg hk => ?_⟩, exec_frv_operand_faults (.inr rfl) s⟩
  · exact exec_faults (.lodOutOfBounds r c a s hc (by omega)) (fetchLeaves_two s)
  · obtain ⟨h1, he⟩ := get_eq_some_iff.mp hg
    exact exec_faults (.lodKind r c e a s hc h0 h1 he hk) (fetchLeaves_two s)

/-- R153: a word divided by itself is 1. -/
theorem div64_self {a : Word} (h : sint a ≠ 0) : div64 a a = 1 := by
  have hover : ¬(sint a = int64Min ∧ sint a = -1) := by
    rintro ⟨hmin, hneg⟩
    simp [hneg, int64Min] at hmin
  apply BitVec.eq_of_toInt_eq
  exact (sint_div64 hover).trans (Int.tdiv_self h)

/-- Settles O22: each meaning's operands have their values at its start, so the one write uses the old ones. -/
theorem destinationMayBeASource : Obligations.DestinationMayBeASource := by
  intro s r
  have hold : resolve (.reg r) s = some (s.readReg r) := rfl
  refine ⟨?_, ?_, ?_, fun hne => ?_, fun v h0 hg => ?_⟩
  · obtain ⟨t, h, hdvd, _⟩ := addWritesTheWrappedSum s r _ _ _ _ hold hold
    exact ⟨t, h, by rwa [two_mul]⟩
  · obtain ⟨t, h, hval, _⟩ := exec_completes (.sub r _ _ _ _ s hold hold) (fetchLeaves_three s) rfl
    exact ⟨t, h, by rw [hval, sub64_eq, BitVec.sub_self]; rfl⟩
  · obtain ⟨t, h, hdvd, _⟩ := mulWritesTheLowHalf s r _ _ _ _ hold hold
    exact ⟨t, h, by rwa [sq]⟩
  · obtain ⟨t, h, hval, _⟩ := exec_completes (.div r _ _ _ _ s hold hold hne) (fetchLeaves_three s) rfl
    exact ⟨t, h, by rw [hval, div64_self hne]⟩
  · obtain ⟨h1, hv⟩ := get_eq_some_iff.mp hg
    obtain ⟨t, h, hval, _⟩ := exec_completes (.lod r _ _ v s hold h0 h1 hv) (fetchLeaves_two s) rfl
    exact ⟨t, h, hval⟩

end Sys2Proof.Machine
end

section
/-! Runs of the engine (40_fetch_decode.md sections 3 and 5). A step is the function `stepState`, and any number of
steps its iterate; a stopped engine is a fixed point, so the host's run, the loop of `run()` and every longer iterate
agree from there on. -/

namespace Sys2Proof.Machine

theorem step_eq_next_stepState (s : State) : step s = .next (stepState s) := by
  obtain ⟨hstep, _⟩ := everyStepHasANextState
  obtain ⟨t, h⟩ := hstep s
  rw [h, stepState_of_step h]

/-- R116: a stopped engine is a fixed point of the step. -/
theorem stepState_of_not_running {s : State} (h : s.isRunning = false) : stepState s = s :=
  stepState_of_step (step_of_not_running h)

theorem core_run_eq_iterate (k : Nat) (s : State) : Host.Core.run Sys2Proof.core k s = .next (stepState^[k] s) := by
  induction k generalizing s with
  | zero => rfl
  | succ k ih => rw [core_run_succ (step_eq_next_stepState s), ih, Function.iterate_succ_apply]

/-- What the host's run answers is the iterate. -/
theorem eq_iterate_of_core_run {k : Nat} {s t : State} (h : Host.Core.run Sys2Proof.core k s = .next t) :
    t = stepState^[k] s := by
  rw [core_run_eq_iterate] at h
  cases h
  rfl

theorem runLoop_eq_iterate (n : Nat) (s : State) : runLoop n s = stepState^[n] s := by
  induction n generalizing s with
  | zero => rfl
  | succ n ih =>
    cases hr : s.isRunning with
    | true => rw [runLoop_succ n hr, ih, Function.iterate_succ_apply]
    | false => rw [runLoop_of_not_running _ hr, Function.iterate_fixed (stepState_of_not_running hr)]

/-- R116: more steps than a run needs change nothing. -/
theorem iterate_eq_of_stopped {k n : Nat} {s : State} (h : (stepState^[k] s).isRunning = false) (hkn : k ≤ n) :
    stepState^[n] s = stepState^[k] s := by
  obtain ⟨d, rfl⟩ := Nat.exists_eq_add_of_le' hkn
  rw [Function.iterate_add_apply, Function.iterate_fixed (stepState_of_not_running h)]

/-- What every step keeps, every number of steps keeps. -/
theorem iterate_keeps {P : State → Prop} (hstep : ∀ s t, P s → step s = .next t → P t) (k : Nat) {s : State}
    (hs : P s) : P (stepState^[k] s) :=
  Function.Iterate.rec P hs (fun s hs => hstep s _ hs (step_eq_next_stepState s)) k

/-- Settles O12: a stopped engine is a fixed point, so the step, the loop and every iterate answer it. -/
theorem stoppedEngineStaysAsItIs : Obligations.StoppedEngineStaysAsItIs := by
  intro s hr
  have hfix := stepState_of_not_running hr
  refine ⟨?_, ?_, fun k => ?_⟩
  · simp [stepCall, stepResult, hr, hfix]
  · rw [runCall, runLoop_of_not_running _ hr]
  · rw [core_run_eq_iterate, Function.iterate_fixed hfix]

/-- Settles O34: `step_mem`, for every number of steps. -/
theorem noStepWritesMemory : Obligations.NoStepWritesMemory := by
  intro k s t h
  rw [eq_iterate_of_core_run h]
  exact iterate_keeps (P := fun t => t.mem = s.mem) (fun _ _ hs h => (step_mem h).trans hs) k rfl

/-- R121: a step that leaves the engine running has moved `ip` on, inside the memory. -/
theorem step_progress {s t : State} (h : step s = .next t) (ht : t.isRunning = true) :
    s.ip < t.ip ∧ t.ip ≤ s.mem.capacity := by
  cases hr : s.isRunning with
  | false => simp [eq_of_step_of_not_running hr h, hr] at ht
  | true =>
    obtain hlt | hcap := Nat.lt_or_ge s.ip s.mem.capacity
    · obtain ⟨_, _, hmoves⟩ := step_ip_bounds hr h
      exact hmoves hlt
    · cases h.symm.trans (step_of_capacity_le hr hcap)
      simp [not_running_of_fault (raise_fault s _)] at ht

/-- R121: the distance of `ip` to the end of memory bounds the run. -/
theorem not_running_iterate {n : Nat} {s : State} (h1 : 1 ≤ n) (hn : s.mem.capacity < s.ip + n) :
    (stepState^[n] s).isRunning = false := by
  induction n generalizing s with
  | zero => omega
  | succ n ih =>
    have hstep := step_eq_next_stepState s
    rw [Function.iterate_succ_apply]
    cases ht : (stepState s).isRunning with
    | false => rw [Function.iterate_fixed (stepState_of_not_running ht), ht]
    | true =>
      obtain ⟨hmoves, hle⟩ := step_progress hstep ht
      have hmem := step_mem hstep
      exact ih (by omega) (by rw [hmem]; omega)

/-- Settles O31, from `not_running_iterate`. -/
theorem everyRunEnds : Obligations.EveryRunEnds :=
  ⟨fun s _ => ⟨_, core_run_eq_iterate _ s, not_running_iterate (by omega) (by omega)⟩,
    fun s => ⟨_, core_run_eq_iterate _ s, not_running_iterate (by omega) (by omega)⟩⟩

/-- Settles O32: `CAPACITY + 1` steps stop the engine, and two iterates that are both stopped are the same. -/
theorem runIsStepsUntilTheEngineStops : Obligations.RunIsStepsUntilTheEngineStops := by
  intro k s t h ht
  obtain rfl := eq_iterate_of_core_run h
  have hend : (stepState^[s.mem.capacity + 1] s).isRunning = false := not_running_iterate (by omega) (by omega)
  have hsame : stepState^[s.mem.capacity + 1] s = stepState^[k] s := by
    obtain hle | hle := Nat.le_total k (s.mem.capacity + 1)
    · exact iterate_eq_of_stopped ht hle
    · exact (iterate_eq_of_stopped hend hle).symm
  rw [runCall, runLoop_eq_iterate, hsame]

/-- Settles O33: one step more stops the engine at the HLT, and by the invariant it holds no exit status there. -/
theorem runThatReachesHltReturnsHalted : Obligations.RunThatReachesHltReturnsHalted := by
  intro k s t hs h hr hg
  have ht := eq_iterate_of_core_run h
  have hinv : t.Inv := ht ▸ iterate_keeps (fun _ _ => step_keeps_inv) k hs
  have hrun : Host.Core.run Sys2Proof.core (k + 1) s = .next t.advance.clearRun := by
    rw [core_run_eq_iterate, Function.iterate_succ_apply', ← ht, stepState_of_step (step_hlt hr hg)]
  obtain ⟨_, hf⟩ := (isRunning_iff t).mp hr
  have houtcome : t.advance.clearRun.outcome = .halted :=
    outcome_of_no_fault_of_no_exit (s := t.advance.clearRun) hf (exit_eq_none_of_inv (s := t) hinv hr)
  rw [runIsStepsUntilTheEngineStops (k + 1) s _ hrun (isRunning_clearRun _), houtcome]
  rfl

end Sys2Proof.Machine
end

section
/-! The Memory Store inside the memory, and the reset over it (20_memory.md section 1, 70_reset_and_hazards.md). A cell
write answers for its own address and leaves every other one; the loader's operations are cell writes, one after
another. -/

namespace Sys2Proof.Machine

/-- R52, R54: a cell write inside the memory, as `get` sees it. -/
theorem get_memWrite_same {m : Memory} {a : Nat} (c : Cell) (h : m.wf) (ha : a < m.capacity) :
    (m.memWrite a c).get a = some c := by
  obtain ⟨hread, _⟩ := memWrite_spec a c h
  exact get_eq_some_iff.mpr ⟨ha, hread⟩

theorem get_memWrite_other {m : Memory} {a b : Nat} (c : Cell) (h : m.wf) (hb : b ≠ a) :
    (m.memWrite a c).get b = m.get b := by
  obtain ⟨_, hread, _⟩ := memWrite_spec a c h
  simp only [Memory.get, memWrite_capacity, hread b hb]

/-- Settles O46: `set` inside the memory is the cell write. -/
theorem setWritesOneCell : Obligations.SetWritesOneCell :=
  fun _ _ c h ha => ⟨_, set_of_lt_capacity c ha, get_memWrite_same c h ha, fun _ => get_memWrite_other c h, rfl, rfl⟩

/-- Settles O47: `appendSequential` with room is the cell write at the cursor. -/
theorem appendWritesAtTheCursor : Obligations.AppendWritesAtTheCursor :=
  fun _ c h hroom => ⟨_, appendSequential_of_lt_capacity c hroom, get_memWrite_same c h hroom,
    fun _ => get_memWrite_other c h, rfl, rfl⟩

/-- Settles O48: a fresh memory lists no cell, so every address it has reads as the fill. -/
theorem createFillsWithHlt : Obligations.CreateFillsWithHlt :=
  fun n => ⟨rfl, rfl, fun _ => get_create, fun _ => (get_eq_none_iff (m := Memory.create n)).mpr⟩

/-- An address that reads as anything but the fill is listed with that cell. -/
theorem mem_of_cellsRead_ne_fill {l : List (Nat × Cell)} {a : Nat} (h : cellsRead l a ≠ fillCell) :
    (a, cellsRead l a) ∈ l := by
  induction l with
  | nil => exact absurd rfl h
  | cons p rest ih =>
    by_cases hp : a = p.1
    · simp [cellsRead, hp]
    · simp only [cellsRead, if_neg hp] at h ⊢
      exact List.mem_cons_of_mem _ (ih h)

/-- A listed cell is what its address reads as. -/
theorem cellsRead_of_mem {l : List (Nat × Cell)} (hord : l.Pairwise (fun p q => p.1 < q.1)) {p : Nat × Cell}
    (hp : p ∈ l) : cellsRead l p.1 = p.2 := by
  induction l with
  | nil => cases hp
  | cons q rest ih =>
    obtain ⟨hlt, hrest⟩ := List.pairwise_cons.mp hord
    obtain rfl | hp := List.mem_cons.mp hp
    · simp [cellsRead]
    · have := hlt p hp
      rw [cellsRead, if_neg (by omega), ih hrest hp]

/-- The canonical list holds exactly the addresses that read as anything but the fill (log 3). -/
theorem mem_iff_cellsRead {l : List (Nat × Cell)} (h : cellsCanonical l) (p : Nat × Cell) :
    p ∈ l ↔ cellsRead l p.1 = p.2 ∧ p.2 ≠ fillCell := by
  obtain ⟨hord, hfill⟩ := h
  refine ⟨fun hp => ⟨cellsRead_of_mem hord hp, hfill p hp⟩, fun ⟨hread, hne⟩ => ?_⟩
  have hmem := mem_of_cellsRead_ne_fill (hread ▸ hne)
  rwa [hread] at hmem

/-- Lists in canonical form that read the same are equal: they have the same members in the same order. -/
theorem cells_eq_of_cellsRead_eq {l l' : List (Nat × Cell)} (h : cellsCanonical l) (h' : cellsCanonical l')
    (heq : ∀ a, cellsRead l a = cellsRead l' a) : l = l' := by
  have hnodup {k : List (Nat × Cell)} (hk : cellsCanonical k) : k.Nodup := by
    refine hk.1.imp fun {p q} hlt => ?_
    rintro rfl
    exact Nat.lt_irrefl _ hlt
  have hperm : l.Perm l' := (List.perm_ext_iff_of_nodup (hnodup h) (hnodup h')).mpr fun p => by
    rw [mem_iff_cellsRead h, mem_iff_cellsRead h', heq]
  exact hperm.eq_of_pairwise (fun p q _ _ hpq hqp => absurd hpq (Nat.lt_asymm hqp)) h.1 h'.1

/-- At and past `CAPACITY` a canonical memory lists nothing. -/
theorem memRead_of_capacity_le {m : Memory} (h : m.wf) {a : Nat} (ha : m.capacity ≤ a) : m.memRead a = fillCell := by
  obtain ⟨_, hcells, _⟩ := h
  by_contra hne
  obtain ⟨_, hlt⟩ := hcells _ (mem_of_cellsRead_ne_fill hne)
  omega

/-- Settles O49: `get` reads the list inside the memory, outside it both lists read as the fill, and lists that read
the same are equal. -/
theorem equalReadsMeanEqualMemory : Obligations.EqualReadsMeanEqualMemory := by
  intro m n hm hn hcap hcur hget
  have hread (a : Nat) : m.memRead a = n.memRead a := by
    obtain ha | ha := Nat.lt_or_ge a m.capacity
    · have hsome : n.get a = some (m.memRead a) := (hget a).symm.trans (get_eq_some_iff.mpr ⟨ha, rfl⟩)
      exact (get_eq_some_iff.mp hsome).2.symm
    · rw [memRead_of_capacity_le hm ha, memRead_of_capacity_le hn (hcap ▸ ha)]
  have hcells : m.cells = n.cells := cells_eq_of_cellsRead_eq (wf_canonical hm) (wf_canonical hn) hread
  cases m
  cases n
  simp_all

/-- R53, R242: appends with room succeed, each at the next address from the cursor on, and leave the rest alone. -/
theorem appendAll_spec (cs : List Cell) {m : Memory} (h : m.wf) (hroom : m.cursor + cs.length ≤ m.capacity) :
    ∃ m', m.appendAll cs = (.ok, m') ∧ m'.capacity = m.capacity ∧ m'.cursor = m.cursor + cs.length ∧
      (∀ k c, cs[k]? = some c → m'.get (m.cursor + k) = some c) ∧
      ∀ a, (a < m.cursor ∨ m.cursor + cs.length ≤ a) → m'.get a = m.get a := by
  induction cs generalizing m with
  | nil => exact ⟨m, rfl, rfl, rfl, by simp, fun _ _ => rfl⟩
  | cons d cs ih =>
    rw [List.length_cons] at hroom
    obtain ⟨m₁, happ, hat, hother, hcur, hcap⟩ := appendWritesAtTheCursor m d h (by omega)
    have hwf : m₁.wf := by
      have := appendSequential_keeps_wf d h
      rwa [happ] at this
    obtain ⟨m', hall, hcap', hcur', hcells, hrest⟩ := ih hwf (by omega)
    refine ⟨m', ?_, hcap'.trans hcap, ?_, fun k c hk => ?_, fun a ha => ?_⟩
    · simp only [Memory.appendAll, happ, hall]
    · rw [hcur', hcur, List.length_cons]
      omega
    · cases k with
      | zero =>
        rw [List.getElem?_cons_zero, Option.some.injEq] at hk
        rw [Nat.add_zero, hrest _ (by omega), hat, hk]
      | succ k =>
        have hget := hcells k c (by simpa using hk)
        rwa [hcur, Nat.add_right_comm] at hget
    · rw [List.length_cons] at ha
      rw [hrest a (by omega), hother a (by omega)]

/-- Settles O50: `appendAll_spec` over a fresh memory, whose cursor is 0 and whose other cells are the fill. -/
theorem appendedProgramStandsInMemory : Obligations.AppendedProgramStandsInMemory := by
  intro n cs hlen
  have hroom : (Memory.create n).cursor + cs.length ≤ (Memory.create n).capacity := by
    simpa [Memory.create] using hlen
  obtain ⟨m, hall, hcap, hcur, hcells, hrest⟩ := appendAll_spec cs (create_wf n) hroom
  have hwf : m.wf := by
    have := appendAll_keeps_wf cs (create_wf n)
    rwa [hall] at this
  have hzero : (Memory.create n).cursor = 0 := rfl
  simp only [hzero, Nat.zero_add] at hcur hcells hrest
  exact ⟨m, hall, hwf, hcap, hcur, hcells, fun a ha hlt => (hrest a (.inr ha)).trans (get_create hlt)⟩

/-! ### The reset, and the host's view of the latches -/

theorem construct_inv {m : Memory} (h : m.wf) : (construct m).Inv := by
  exact ⟨h, Nat.zero_le _, by simp, by simp⟩

/-- Settles O29: `State.reset` is the reset over a fresh memory, which is canonical. -/
theorem resetMeetsTheInvariant : Obligations.ResetMeetsTheInvariant :=
  ⟨construct_inv (create_wf Config.capacity), fun _ => construct_inv⟩

/-- Settles O30: the fields of `construct`, and the fill of a fresh memory. -/
theorem resetValues : Obligations.ResetValues := by
  refine ⟨fun m => ⟨rfl, read_zero, rfl, rfl, rfl, rfl, rfl, rfl, rfl, rfl⟩, rfl, fun a => ?_⟩
  rw [reset_eq_construct, construct_mem]
  split
  case isTrue h => exact get_create h
  case isFalse h => exact get_eq_none_iff.mpr (Nat.le_of_not_lt h)

/-- R30, R211: the code of the latch names the fault, and 0 stands for none alone. -/
theorem faultCode_of_fault {s : State} {f : Fault} (h : s.fault = some f) : s.faultCode = f.code := by
  simp [State.faultCode, h]

theorem faultCode_of_no_fault {s : State} (h : s.fault = none) : s.faultCode = 0 := by
  simp [State.faultCode, h]

/-- R211: no fault has the code 0, 6 or 7. -/
theorem fault_code_ne (f : Fault) : f.code ≠ 0 ∧ f.code ≠ 6 ∧ f.code ≠ 7 := by
  cases f <;> decide

/-- Settles O43: the codes by the fault latched, the exit view by the status held. -/
theorem latchCodes : Obligations.LatchCodes := by
  refine ⟨rfl, fun s => ?_⟩
  have hexit : (s.exitValid = false → s.exitStatus = 0) ∧
      ∀ v, s.exit = some v → s.exitValid = true ∧ s.exitStatus = v := by
    cases h : s.exit <;> simp [State.exitValid, State.exitStatus, h]
  cases hf : s.fault with
  | none =>
    rw [faultCode_of_no_fault hf]
    exact ⟨by simp, by decide, by decide, fun _ h => (Option.some_ne_none _ h.symm).elim, hexit⟩
  | some f =>
    rw [faultCode_of_fault hf]
    obtain ⟨h0, h6, h7⟩ := fault_code_ne f
    exact ⟨by simpa using h0, h6, h7, fun g hg => congrArg Fault.code (Option.some.inj hg), hexit⟩

end Sys2Proof.Machine
end

section
/-! What a step fetches (40_fetch_decode.md sections 1 and 2): the cell at `ip`, and the instruction that the words from
`ip` on decode to. A step's meaning reads the instruction's own cells and, for LOD, the loaded one. -/

namespace Sys2Proof

/-- The words that spell a list of cells are that list's words. -/
theorem decodeWords_eq_ok {ws : List CellWord} {cs : List Cell} (h : decodeWords ws = .ok cs) :
    ws = cs.map encodeCell := by
  induction ws generalizing cs with
  | nil =>
    cases h
    rfl
  | cons w ws ih =>
    rw [decodeWords_cons] at h
    cases hw : decodeCell w with
    | error e => simp [hw] at h
    | ok c =>
      cases hws : decodeWords ws with
      | error e => simp [hw, hws] at h
      | ok ds =>
        simp only [hw, hws, Except.ok.injEq] at h
        rw [← h, List.map_cons, encodeCell_of_decodeCell hw, ← ih hws]

/-- R89, R91: what the decoder answers begins with an opcode cell's word, and is assembled from the cells whose words
stand behind it. -/
theorem decode_cons_eq_ok {w : CellWord} {ws rest : List CellWord} {i : Instr} (h : decode (w :: ws) = .ok (i, rest)) :
    ∃ (o : Opcode) (cs : List Cell), w = encodeCell (.op o) ∧ ws.take (o.cells - 1) = cs.map encodeCell ∧
      i = assemble o cs[0]? cs[1]? cs[2]? := by
  cases hw : decodeCell w with
  | error e => simp [decode, hw] at h
  | ok c =>
    cases c with
    | imm v => simp [decode, hw] at h
    | reg r => simp [decode, hw] at h
    | op o =>
      obtain rfl := encodeCell_of_decodeCell hw
      obtain ⟨cs, hcs, hi, _⟩ := decode_op_cons_eq_ok_iff.mp h
      exact ⟨o, cs, rfl, decodeWords_eq_ok hcs, hi⟩

/-- R85: a cell is told by its word. -/
theorem encodeCell_inj {c d : Cell} (h : encodeCell c = encodeCell d) : c = d := by
  have hd := decodeCell_encodeCell d
  rw [← h, decodeCell_encodeCell, Except.ok.injEq] at hd
  exact hd

end Sys2Proof

namespace Sys2Proof.Machine

/-- Settles O8: `fetchNext` answers by the cell at `ip`, which `get` has exactly below `CAPACITY`. -/
theorem fetchReturnsTheCellAtIpOrFaults : Obligations.FetchReturnsTheCellAtIpOrFaults := by
  refine fun s => ⟨fun hcap => ?_, fun hlt => ?_⟩
  · exact fetchNext_eq_raised_iff.mpr ⟨get_eq_none_iff.mpr hcap, rfl⟩
  · have hg : s.mem.get s.ip = some (s.mem.memRead s.ip) := get_eq_some_iff.mpr ⟨hlt, rfl⟩
    exact ⟨_, hg, fetchNext_eq_done_iff.mpr ⟨hg, rfl⟩⟩

/-- Settles O10: the inversions of `fetchNext` name the cell at `ip`, and `fetchValue` has one equation per kind of
cell. -/
theorem valueOperandIsARegisterOrALiteral : Obligations.ValueOperandIsARegisterOrALiteral := by
  refine fun s => ⟨fun t h => ?_, fun r t h => ?_, fun v t h => ?_, fun o t h => ?_⟩
  · obtain ⟨hg, rfl⟩ := fetchNext_eq_raised_iff.mp h
    rw [hg, fetchValue_none]
  · obtain ⟨hg, rfl⟩ := fetchNext_eq_done_iff.mp h
    rw [hg]
    exact ⟨fetchValue_reg r s, rfl⟩
  · obtain ⟨hg, rfl⟩ := fetchNext_eq_done_iff.mp h
    rw [hg]
    exact ⟨fetchValue_imm v s, rfl⟩
  · obtain ⟨hg, rfl⟩ := fetchNext_eq_done_iff.mp h
    rw [hg]
    exact ⟨fetchValue_op o s, rfl⟩

/-- R111: a running engine at a cell that is no opcode moves past it and takes `InvalidOperandKind`. -/
theorem step_of_not_opcode {s : State} {c : Cell} (hr : s.isRunning = true) (hg : s.mem.get s.ip = some c)
    (hc : ∀ o, c ≠ .op o) : step s = .next (s.advance.raise .invalidOperandKind) := by
  obtain ⟨hstop, _⟩ | ⟨_, hnone, _⟩ | ⟨_, _, _, _, he⟩ | ⟨o, _, ho, _⟩ := step_cases s
  · simp [hr] at hstop
  · simp [hg] at hnone
  · exact he
  · rw [hg, Option.some.injEq] at ho
    exact absurd ho (hc o)

/-- Settles O11, from the two equations of a step without an opcode cell. -/
theorem stepFaultsWithoutAnOpcodeCell : Obligations.StepFaultsWithoutAnOpcodeCell :=
  fun _ hr => ⟨step_of_capacity_le hr, fun _ => step_of_not_opcode hr⟩

/-- R111: where the opcode's own operand cells are `cs`, a running engine runs what `cs` assembles to. -/
theorem step_of_operand_cells {s : State} {o : Opcode} {cs : List Cell} (hr : s.isRunning = true)
    (hg : s.mem.get s.ip = some (.op o)) (hcs : ∀ k, k < o.cells - 1 → s.mem.get (s.ip + 1 + k) = cs[k]?) :
    step s = exec (assemble o cs[0]? cs[1]? cs[2]?) s.advance := by
  have hassemble : s.instrAt o = assemble o cs[0]? cs[1]? cs[2]? := assemble_congr (g := fun k => cs[k]?) hcs
  rw [← hassemble, step_eq_exec_instrAt hr hg]

theorem cells_le (o : Opcode) : o.cells ≤ 4 := by cases o <;> decide

/-- Settles O7: the words from `ip` on are those of the cells there, so the decoder assembles what the step fetches. -/
theorem stepRunsTheDecodedInstruction : Obligations.StepRunsTheDecodedInstruction := by
  intro s i rest hr h
  cases hg : s.mem.get s.ip with
  | none => simp [Memory.cellsFrom, hg, decode] at h
  | some c =>
    have hcells : s.mem.cellsFrom s.ip 4 = c :: s.mem.cellsFrom (s.ip + 1) 3 := by
      rw [Memory.cellsFrom, hg]
    rw [hcells, List.map_cons] at h
    obtain ⟨o, cs, hc, hcs, rfl⟩ := decode_cons_eq_ok h
    obtain rfl := encodeCell_inj hc
    rw [← List.map_take] at hcs
    have htake : (s.mem.cellsFrom (s.ip + 1) 3).take (o.cells - 1) = cs :=
      List.map_injective_iff.mpr (fun _ _ => encodeCell_inj) hcs
    refine step_of_operand_cells hr hg fun k hk => ?_
    have := cells_le o
    rw [← htake, List.getElem?_take_of_lt hk, getElem?_cellsFrom _ _ _ _ (by omega)]

/-! ### What a step reads -/

theorem resolve_with_mem (c : Cell) (s : State) (m : Memory) : resolve c { s with mem := m } = resolve c s := by
  cases c <;> rfl

/-- R112, R113: an operand fault does not depend on memory once the operands are fetched. -/
theorem OperandRaise.with_mem {ks : List PosKind} {as : List Fetched} {s t : State} (h : OperandRaise ks as s t)
    (m : Memory) : OperandRaise ks as { s with mem := m } { t with mem := m } := by
  induction h with
  | absent k ks as s => exact .absent k ks as { s with mem := m }
  | kind k c ks as s hk => exact .kind k c ks as { s with mem := m } hk
  | later k c ks as s t hk _ ih => exact .later k c ks as { s with mem := m } { t with mem := m } hk ih

/-- Once its operands are fetched, an instruction reads at most the cell at a LOD's address. -/
theorem ExecLeaves.with_mem {i : Instr} {s t : State} (h : ExecLeaves i s t) {m : Memory}
    (hcap : m.capacity = s.mem.capacity)
    (hlod : ∀ x c a, i = .lod x (some c) → resolve c s = some a → m.get (sint a).toNat = s.mem.get (sint a).toNat) :
    ExecLeaves i { s with mem := m } { t with mem := m } := by
  have hval {c : Cell} {v : Word} (hc : resolve c s = some v) : resolve c { s with mem := m } = some v :=
    (resolve_with_mem c s m).trans hc
  cases h with
  | nop => exact .nop _
  | hlt => exact .hlt { s with mem := m }
  | exit _ h0 => exact .exit { s with mem := m } h0
  | unsupported _ h0 => exact .unsupported { s with mem := m } h0
  | operand _ _ _ h => exact .operand _ _ _ (h.with_mem m)
  | add r c d a b _ hc hd => exact .add r c d a b { s with mem := m } (hval hc) (hval hd)
  | sub r c d a b _ hc hd => exact .sub r c d a b { s with mem := m } (hval hc) (hval hd)
  | mul r c d a b _ hc hd => exact .mul r c d a b { s with mem := m } (hval hc) (hval hd)
  | div r c d a b _ hc hd hb => exact .div r c d a b { s with mem := m } (hval hc) (hval hd) hb
  | divZero r c d a b _ hc hd hb => exact .divZero r c d a b { s with mem := m } (hval hc) (hval hd) hb
  | sto r c v _ hc => exact .sto r c v { s with mem := m } (hval hc)
  | lod r c a v _ hc h0 h1 hv =>
    obtain ⟨h1', hv'⟩ := get_eq_some_iff.mp ((hlod _ c a rfl hc).trans (get_eq_some_iff.mpr ⟨h1, hv⟩))
    exact .lod r c a v { s with mem := m } (hval hc) h0 h1' hv'
  | lodOutOfBounds r c a _ hc hr => exact .lodOutOfBounds r c a { s with mem := m } (hval hc) (hcap.symm ▸ hr)
  | lodKind r c e a _ hc h0 h1 he hk =>
    obtain ⟨h1', he'⟩ := get_eq_some_iff.mp ((hlod _ c a rfl hc).trans (get_eq_some_iff.mpr ⟨h1, he⟩))
    exact .lodKind r c e a { s with mem := m } (hval hc) h0 h1' he' hk

/-- Settles O44: memories that agree on the instruction's cells give the same instruction, and `ExecLeaves.with_mem`
the same meaning. -/
theorem stepReadsOnlyItsOwnCells : Obligations.StepReadsOnlyItsOwnCells := by
  intro s t m o hr hg hcap hcells hlod h
  have hpos : 0 < o.cells := by cases o <;> decide
  have hg' : m.get s.ip = some (.op o) := (hcells 0 hpos).trans hg
  have hinstr : State.instrAt { s with mem := m } o = s.instrAt o :=
    assemble_congr (f := fun k => m.get (s.ip + (k + 1))) (g := fun k => s.mem.get (s.ip + (k + 1)))
      fun k hk => hcells (k + 1) (by omega)
  have hx : ExecLeaves (s.instrAt o) s.advance t := execLeaves_of_exec ((step_eq_exec_instrAt hr hg).symm.trans h)
  have hx' := hx.with_mem (m := m) hcap fun x c a hi hc => by
    have ho : o = .lod := (instrAt_opcode s o).symm.trans (congrArg Instr.opcode hi)
    have hop : (s.instrAt o).operands[1]? = some (some c) := by rw [hi]; rfl
    exact hlod ho c a (get_of_operands_instrAt hop) (by simpa using hc)
  rw [step_eq_exec_instrAt (s := { s with mem := m }) hr hg', hinstr]
  exact exec_of_execLeaves hx'

/-! ### The host's placing of one instruction (log 5, log 6) -/

/-- Words placed inside the memory: nothing below them changes, and each word that spells a cell stands at its
address. -/
theorem placeWords_spec (ws : List CellWord) {m : Memory} {a : Nat} (h : m.wf) (hroom : a + ws.length ≤ m.capacity) :
    (∀ b, b < a → (m.placeWords a ws).get b = m.get b) ∧
      ∀ k c, ws[k]? = some (encodeCell c) → (m.placeWords a ws).get (a + k) = some c := by
  induction ws generalizing m a with
  | nil => simp [Memory.placeWords]
  | cons w ws ih =>
    rw [List.length_cons] at hroom
    cases hw : decodeCell w with
    | error e =>
      obtain ⟨hbelow, hcells⟩ := ih (a := a + 1) h (by omega)
      simp only [Memory.placeWords, hw]
      refine ⟨fun b hb => hbelow b (by omega), fun k c hk => ?_⟩
      cases k with
      | zero =>
        rw [List.getElem?_cons_zero, Option.some.injEq] at hk
        simp [hk] at hw
      | succ k =>
        have hget := hcells k c (by simpa using hk)
        rwa [Nat.add_right_comm] at hget
    | ok d =>
      obtain ⟨m₁, hset, hat, hother, _, hcap⟩ := setWritesOneCell m a d h (by omega)
      have hwf : m₁.wf := by
        have := set_keeps_wf a d h
        rwa [hset] at this
      obtain ⟨hbelow, hcells⟩ := ih (a := a + 1) hwf (by omega)
      simp only [Memory.placeWords, hw, hset]
      refine ⟨fun b hb => (hbelow b (by omega)).trans (hother b (by omega)), fun k c hk => ?_⟩
      cases k with
      | zero =>
        rw [List.getElem?_cons_zero, Option.some.injEq] at hk
        rw [hk, decodeCell_encodeCell, Except.ok.injEq] at hw
        exact (hbelow a (by omega)).trans (hat.trans (congrArg some hw.symm))
      | succ k =>
        have hget := hcells k c (by simpa using hk)
        rwa [Nat.add_right_comm] at hget

theorem length_wordsOfNat (n nbits w : Nat) : (wordsOfNat n nbits w).length = n := by
  induction n generalizing nbits w with
  | zero => rfl
  | succ n ih => simp [wordsOfNat, ih]

/-- What `decodeTableWord` reads is what the decoder answers on the four words. -/
theorem decode_of_decodeTableWord {nbits w : Nat} {i : Instr} (h : decodeTableWord nbits w = some i) :
    ∃ rest, decode (tableWords nbits w) = .ok (i, rest) := by
  unfold decodeTableWord at h
  split at h
  next j rest heq =>
    cases h
    exact ⟨rest, heq⟩
  next => cases h

/-- Settles O51: the words placed at `ip` stand there as cells as far as the instruction reaches, so the step assembles
what the decoder does. -/
theorem placedWordRunsNext : Obligations.PlacedWordRunsNext := by
  intro s nbits w i hwf h
  obtain ⟨rest, hdec⟩ := decode_of_decodeTableWord h
  have hlen : (tableWords nbits w).length = 4 := length_wordsOfNat 4 nbits w
  obtain ⟨_, hcells⟩ := placeWords_spec (tableWords nbits w) (a := s.ip) (grow_keeps_wf (s.ip + 4) hwf)
    (by rw [hlen]; exact Nat.le_add_left _ _)
  obtain ⟨v, ws, hvs⟩ := List.exists_cons_of_length_eq_add_one hlen
  rw [hvs] at hdec hlen
  obtain ⟨o, cs, rfl, hcs, rfl⟩ := decode_cons_eq_ok hdec
  refine step_of_operand_cells (s := s.withFetchWord nbits w) rfl (hcells 0 _ (by rw [hvs]; rfl)) fun k hk => ?_
  have hk4 := cells_le o
  have hword : ws[k]? = cs[k]?.map encodeCell := by
    rw [← List.getElem?_map, ← hcs, List.getElem?_take_of_lt hk]
  obtain ⟨c, hc⟩ : ∃ c, cs[k]? = some c := by
    rw [List.length_cons] at hlen
    rw [List.getElem?_eq_getElem (by omega : k < ws.length)] at hword
    cases hc : cs[k]? with
    | none => simp [hc] at hword
    | some c => exact ⟨c, rfl⟩
  have hget := hcells (k + 1) c (by rw [hvs, List.getElem?_cons_succ, hword, hc]; rfl)
  rw [hc, ← hget, Nat.add_assoc, Nat.add_comm 1 k]
  rfl

end Sys2Proof.Machine
end
